-- ==== Sys2Proof/Word.lean ====
section
/-! DEFINITION. The word types of the core: bytes, 16-bit words, 12-bit addresses and the encoding's fields
(00_scope.md R8, R10; 30_encoding.md R91). All values are unsigned (R11). -/

namespace Sys2Proof

/-- A byte: a general register, a timer, a memory cell, the immediate KK. -/
abbrev Byte := BitVec 8

/-- A 16-bit word: an opcode, the program counter, a stack entry. -/
abbrev Word := BitVec 16

/-- A 12-bit address: the field NNN and the index register I. -/
abbrev Addr := BitVec 12

/-- A nibble: the fields X and Y (register numbers) and N (a count). -/
abbrev Nibble := BitVec 4

end Sys2Proof
end

