-- ==== Sys2Proof/Syntax.lean ====
section
/-! DEFINITION. The 35 operations of the core (30_encoding.md R94), one constructor for each row of
spec/opcode_table.json, in the table's order. The operands are the row's fields (R91). -/

namespace Sys2Proof

/-- An instruction: an operation with its operand fields. Unknown words (30_encoding.md R100) are no instruction:
the decoder rejects them by name and the step gives them the effect of 40_step.md R126. -/
inductive Instr where
  /-- `00E0` CLS, clear the display (R270). -/
  | cls
  /-- `00EE` RET, return from a subroutine (R141). -/
  | ret
  /-- `0NNN` SYS NNN, any other class-0 word: a no-op (R140). -/
  | sys (nnn : Addr)
  /-- `1NNN` JP NNN (R142). -/
  | jp (nnn : Addr)
  /-- `2NNN` CALL NNN (R143). -/
  | call (nnn : Addr)
  /-- `3XKK` SE VX, KK (R161). -/
  | seImm (x : Nibble) (kk : Byte)
  /-- `4XKK` SNE VX, KK (R162). -/
  | sneImm (x : Nibble) (kk : Byte)
  /-- `5XY.` SE VX, VY (R163); the low nibble is no field (R99). -/
  | seReg (x y : Nibble)
  /-- `6XKK` LD VX, KK (R182). -/
  | ldImm (x : Nibble) (kk : Byte)
  /-- `7XKK` ADD VX, KK (R183). -/
  | addImm (x : Nibble) (kk : Byte)
  /-- `8XY0` LD VX, VY (R184). -/
  | ldReg (x y : Nibble)
  /-- `8XY1` OR VX, VY (R185). -/
  | orReg (x y : Nibble)
  /-- `8XY2` AND VX, VY (R186). -/
  | andReg (x y : Nibble)
  /-- `8XY3` XOR VX, VY (R187). -/
  | xorReg (x y : Nibble)
  /-- `8XY4` ADD VX, VY (R188). -/
  | addReg (x y : Nibble)
  /-- `8XY5` SUB VX, VY (R189). -/
  | sub (x y : Nibble)
  /-- `8XY6` SHR VX (R190); Y is a field of the word that is not read. -/
  | shr (x y : Nibble)
  /-- `8XY7` SUBN VX, VY (R191). -/
  | subn (x y : Nibble)
  /-- `8XYE` SHL VX (R192); Y is a field of the word that is not read. -/
  | shl (x y : Nibble)
  /-- `9XY.` SNE VX, VY (R164); the low nibble is no field (R99). -/
  | sneReg (x y : Nibble)
  /-- `ANNN` LD I, NNN (R220). -/
  | ldI (nnn : Addr)
  /-- `BNNN` JP V0, NNN (R144). -/
  | jpV0 (nnn : Addr)
  /-- `CXKK` RND VX, KK (R193). -/
  | rnd (x : Nibble) (kk : Byte)
  /-- `DXYN` DRW VX, VY, N (R271). -/
  | drw (x y n : Nibble)
  /-- `EX9E` SKP VX (R165). -/
  | skp (x : Nibble)
  /-- `EXA1` SKNP VX (R166). -/
  | sknp (x : Nibble)
  /-- `FX07` LD VX, DT (R250). -/
  | ldVDt (x : Nibble)
  /-- `FX0A` LD VX, K, wait for a key (R251). -/
  | ldVK (x : Nibble)
  /-- `FX15` LD DT, VX (R252). -/
  | ldDtV (x : Nibble)
  /-- `FX18` LD ST, VX (R253). -/
  | ldStV (x : Nibble)
  /-- `FX1E` ADD I, VX (R221). -/
  | addI (x : Nibble)
  /-- `FX29` LD F, VX (R222). -/
  | ldF (x : Nibble)
  /-- `FX33` LD B, VX (R223). -/
  | ldB (x : Nibble)
  /-- `FX55` LD [I], VX (R224). -/
  | ldMemV (x : Nibble)
  /-- `FX65` LD VX, [I] (R225). -/
  | ldVMem (x : Nibble)
deriving DecidableEq, Repr

end Sys2Proof
end

