-- ==== Sys2Proof/Decode.lean ====
section
/-! DEFINITION. The decoder and the encoder (30_encoding.md R90 to R103). Decoding reads the 16-bit word alone (R103)
and is total: every word is one of the 35 operations or is rejected by name as unknown (R100, R102). -/

namespace Sys2Proof

/-- The three kinds of unknown opcode (30_encoding.md R100), each with the sub-opcode that no operation has.
They are no error of the machine: the step reports them and goes on (40_step.md R126). -/
inductive Unknown where
  /-- A word `8XYn` with n among 8 to D and F. -/
  | group8 (n : Nibble)
  /-- A word `EXkk` with kk neither 9E nor A1. -/
  | groupE (kk : Byte)
  /-- A word `FXkk` with kk none of 07, 0A, 15, 18, 1E, 29, 33, 55, 65. -/
  | groupF (kk : Byte)
deriving DecidableEq, Repr

/-- The class nibble op[15:12] (R91). -/
def fieldClass (op : Word) : Nibble := op.extractLsb' 12 4

/-- X = op[11:8] (R91). -/
def fieldX (op : Word) : Nibble := op.extractLsb' 8 4

/-- Y = op[7:4] (R91). -/
def fieldY (op : Word) : Nibble := op.extractLsb' 4 4

/-- N = op[3:0] (R91). -/
def fieldN (op : Word) : Nibble := op.extractLsb' 0 4

/-- KK = op[7:0] (R91). -/
def fieldKK (op : Word) : Byte := op.extractLsb' 0 8

/-- NNN = op[11:0] (R91). -/
def fieldNNN (op : Word) : Addr := op.extractLsb' 0 12

/-- Class 0: CLS and RET on all 16 bits, SYS otherwise (R95). -/
def decodeGroup0 (op : Word) : Instr :=
  if op = 0x00E0#16 then .cls
  else if op = 0x00EE#16 then .ret
  else .sys (fieldNNN op)

/-- Class 8, selected by N (R96). -/
def decodeGroup8 (x y n : Nibble) : Except Unknown Instr :=
  if n = 0x0#4 then .ok (.ldReg x y)
  else if n = 0x1#4 then .ok (.orReg x y)
  else if n = 0x2#4 then .ok (.andReg x y)
  else if n = 0x3#4 then .ok (.xorReg x y)
  else if n = 0x4#4 then .ok (.addReg x y)
  else if n = 0x5#4 then .ok (.sub x y)
  else if n = 0x6#4 then .ok (.shr x y)
  else if n = 0x7#4 then .ok (.subn x y)
  else if n = 0xE#4 then .ok (.shl x y)
  else .error (.group8 n)

/-- Class E, selected by KK (R97). -/
def decodeGroupE (x : Nibble) (kk : Byte) : Except Unknown Instr :=
  if kk = 0x9E#8 then .ok (.skp x)
  else if kk = 0xA1#8 then .ok (.sknp x)
  else .error (.groupE kk)

/-- Class F, selected by KK (R98). -/
def decodeGroupF (x : Nibble) (kk : Byte) : Except Unknown Instr :=
  if kk = 0x07#8 then .ok (.ldVDt x)
  else if kk = 0x0A#8 then .ok (.ldVK x)
  else if kk = 0x15#8 then .ok (.ldDtV x)
  else if kk = 0x18#8 then .ok (.ldStV x)
  else if kk = 0x1E#8 then .ok (.addI x)
  else if kk = 0x29#8 then .ok (.ldF x)
  else if kk = 0x33#8 then .ok (.ldB x)
  else if kk = 0x55#8 then .ok (.ldMemV x)
  else if kk = 0x65#8 then .ok (.ldVMem x)
  else .error (.groupF kk)

/-- Decode (R94, 40_step.md R124): dispatch on the class nibble, with a secondary decode for the classes 0, 8, E and F
only; classes 5 and 9 ignore op[3:0] (R99). -/
def decode (op : Word) : Except Unknown Instr :=
  match (fieldClass op).toNat with
  | 0x0 => .ok (decodeGroup0 op)
  | 0x1 => .ok (.jp (fieldNNN op))
  | 0x2 => .ok (.call (fieldNNN op))
  | 0x3 => .ok (.seImm (fieldX op) (fieldKK op))
  | 0x4 => .ok (.sneImm (fieldX op) (fieldKK op))
  | 0x5 => .ok (.seReg (fieldX op) (fieldY op))
  | 0x6 => .ok (.ldImm (fieldX op) (fieldKK op))
  | 0x7 => .ok (.addImm (fieldX op) (fieldKK op))
  | 0x8 => decodeGroup8 (fieldX op) (fieldY op) (fieldN op)
  | 0x9 => .ok (.sneReg (fieldX op) (fieldY op))
  | 0xA => .ok (.ldI (fieldNNN op))
  | 0xB => .ok (.jpV0 (fieldNNN op))
  | 0xC => .ok (.rnd (fieldX op) (fieldKK op))
  | 0xD => .ok (.drw (fieldX op) (fieldY op) (fieldN op))
  | 0xE => decodeGroupE (fieldX op) (fieldKK op)
  | _ => decodeGroupF (fieldX op) (fieldKK op)

/-- The word with class nibble c and the address field NNN. -/
def wordNNN (c : Nibble) (nnn : Addr) : Word := c ++ nnn

/-- The word with class nibble c, X and KK. -/
def wordXKK (c x : Nibble) (kk : Byte) : Word := c ++ (x ++ kk)

/-- The word with class nibble c, X, Y and N. -/
def wordXYN (c x y n : Nibble) : Word := c ++ (x ++ (y ++ n))

/-- The encoder: the word of an instruction, from the patterns of R94. The low nibble of 5XY0 and 9XY0, which decoding
ignores (R99), is written 0, the canonical form of the table's note. -/
def encode : Instr → Word
  | .cls => 0x00E0#16
  | .ret => 0x00EE#16
  | .sys nnn => wordNNN 0x0#4 nnn
  | .jp nnn => wordNNN 0x1#4 nnn
  | .call nnn => wordNNN 0x2#4 nnn
  | .seImm x kk => wordXKK 0x3#4 x kk
  | .sneImm x kk => wordXKK 0x4#4 x kk
  | .seReg x y => wordXYN 0x5#4 x y 0x0#4
  | .ldImm x kk => wordXKK 0x6#4 x kk
  | .addImm x kk => wordXKK 0x7#4 x kk
  | .ldReg x y => wordXYN 0x8#4 x y 0x0#4
  | .orReg x y => wordXYN 0x8#4 x y 0x1#4
  | .andReg x y => wordXYN 0x8#4 x y 0x2#4
  | .xorReg x y => wordXYN 0x8#4 x y 0x3#4
  | .addReg x y => wordXYN 0x8#4 x y 0x4#4
  | .sub x y => wordXYN 0x8#4 x y 0x5#4
  | .shr x y => wordXYN 0x8#4 x y 0x6#4
  | .subn x y => wordXYN 0x8#4 x y 0x7#4
  | .shl x y => wordXYN 0x8#4 x y 0xE#4
  | .sneReg x y => wordXYN 0x9#4 x y 0x0#4
  | .ldI nnn => wordNNN 0xA#4 nnn
  | .jpV0 nnn => wordNNN 0xB#4 nnn
  | .rnd x kk => wordXKK 0xC#4 x kk
  | .drw x y n => wordXYN 0xD#4 x y n
  | .skp x => wordXKK 0xE#4 x 0x9E#8
  | .sknp x => wordXKK 0xE#4 x 0xA1#8
  | .ldVDt x => wordXKK 0xF#4 x 0x07#8
  | .ldVK x => wordXKK 0xF#4 x 0x0A#8
  | .ldDtV x => wordXKK 0xF#4 x 0x15#8
  | .ldStV x => wordXKK 0xF#4 x 0x18#8
  | .addI x => wordXKK 0xF#4 x 0x1E#8
  | .ldF x => wordXKK 0xF#4 x 0x29#8
  | .ldB x => wordXKK 0xF#4 x 0x33#8
  | .ldMemV x => wordXKK 0xF#4 x 0x55#8
  | .ldVMem x => wordXKK 0xF#4 x 0x65#8

/-- The 16-bit opcode of two bytes in memory order: big-endian (20_memory.md R61). -/
def composeWord (hi lo : Byte) : Word := hi ++ lo

/-- The byte of a word that lies at the lower address, op[15:8]. -/
def highByte (op : Word) : Byte := op.extractLsb' 8 8

/-- The byte of a word that lies at the higher address, op[7:0]. -/
def lowByte (op : Word) : Byte := op.extractLsb' 0 8

/-- The word of a table row given as its low nbits bits, the bits above them 0. -/
def tableWord (nbits w : Nat) : Word := BitVec.ofNat 16 (w % 2 ^ nbits)

/-- What the decoder reads from an instruction whose bits are w, numbered as spec/opcode_table.json numbers them: the
word is laid out as its two bytes and composed again as a fetch does. -/
def decodeTableWord (nbits w : Nat) : Option Instr :=
  match decode (composeWord (highByte (tableWord nbits w)) (lowByte (tableWord nbits w))) with
  | .ok i => some i
  | .error _ => none

end Sys2Proof
end

