-- ==== Sys2Proof/Config.lean ====
section
/-! DEFINITION. What the spec leaves to the configuration or to a free draw: FLAG_ORDER and rnd (00_scope.md R9).
Both are opaque constants without a body, so no proof can see a value of them. CLOCK_HZ, which the host can change
between steps, is held in State. -/

namespace Sys2Proof

/-- The two values of the parameter FLAG_ORDER (00_scope.md R9, 43_alu.md R181): which write ends up in VF when an
instruction writes both a result to VX and a flag to VF and X = F. -/
inductive FlagOrder where
  /-- VF ends as the flag. -/
  | flagLast
  /-- VF ends as the result. -/
  | resultLast
deriving DecidableEq, Repr, Inhabited

/-- The parameter FLAG_ORDER, OPEN in the spec (D11): no value is fixed here (log entry 4, DESIGN CHOICE, safe). -/
opaque Config.flagOrder : FlagOrder

/-- The byte drawn by the n-th execution of CXKK (43_alu.md R193, D30): a free value, unconstrained
(log entry 3, DESIGN CHOICE, safe). -/
opaque Config.rnd : Nat → Byte

end Sys2Proof
end

