-- ==== Sys2Proof/Machine/State.lean ====
section
/-! DEFINITION. The state of the core as plain data (10_state.md R41), the reasons a step can stop, and the state after
reset (70_reset_and_hazards.md R350, R356). -/

namespace Sys2Proof.Machine

/-- The scheduler's mode (10_state.md R36). -/
inductive RunMode where
  | running
  | paused
deriving DecidableEq, Repr

/-- The causes of a fault of the core (60_exceptions.md R302). -/
inductive Cause where
  /-- No fault. -/
  | none
  /-- Fetch at pc > 0xFFE. -/
  | fetchOob
  /-- A data range reaching above 0xFFF. -/
  | memOob
  /-- CALL with 16 entries on the stack. -/
  | stackOverflow
  /-- RET with an empty stack. -/
  | stackUnderflow
  /-- FX1E with I + VX > 0xFFF. -/
  | indexOob
  /-- FX29 with VX > 0xF. -/
  | fontIndex
  /-- EX9E or EXA1 with VX > 0xF. -/
  | keyIndex
deriving DecidableEq, Repr

/-- The fault record (60_exceptions.md R300, R301): the cause, the address of the faulting instruction, and the number
recorded with it. `info` is an exact number, as R302 gives it. -/
structure FaultRecord where
  cause : Cause
  pc : Word
  info : Nat
deriving DecidableEq, Repr

/-- The output events of the core (10_state.md R45). -/
inductive Event where
  /-- A tone request (60_exceptions.md R324). -/
  | tone (frequencyHz durationMs : Nat)
  /-- The diagnostic of an unknown opcode (40_step.md R126). -/
  | unknownOpcode (pc op : Word)
  /-- A fault entry (60_exceptions.md R301). -/
  | fault (cause : Cause) (pc : Word) (info : Nat)
deriving DecidableEq, Repr

/-- The sixteen general registers (10_state.md R20). -/
abbrev Regs := Vector Byte 16

/-- The display plane: 32 rows of 64 pixels (10_state.md R31). -/
abbrev Plane := Vector (Vector Bool 64) 32

/-- The state of the machine: every row of 10_state.md R41, the host-settable parameter CLOCK_HZ, and two fields of the
model's own (`draws`, `events`). -/
structure State where
  /-- V0 to VF (R20); V[15] is VF, the only flag register (R22). -/
  v : Regs
  /-- The index register I (R23). -/
  i : Addr
  /-- The program counter (R24). -/
  pc : Word
  /-- The number of occupied stack entries, 0..16 (R27). -/
  sp : Fin 17
  /-- The call stack's return addresses (R26). -/
  stack : Vector Word 16
  /-- The delay timer DT (R28). -/
  dt : Byte
  /-- The sound timer ST (R29). -/
  st : Byte
  /-- The keyboard vector, written by the host only (R30). -/
  key : Vector Bool 16
  /-- The display plane (R31): `disp[r][c]`. -/
  disp : Plane
  /-- The opcode register (R32). -/
  opcode : Word
  /-- The frame-ready flag (R33). -/
  drawFlag : Bool
  /-- The memory (R34) as its cells that differ from the contents after initialize, by rising address. -/
  mem : List Host.Cell
  /-- The timer accumulator, in sixtieths of a cycle (R35). -/
  acc : Nat
  /-- RUNNING or PAUSED (R36). -/
  runMode : RunMode
  /-- The fault state's bit (R37, 60_exceptions.md R300). -/
  halted : Bool
  /-- The fault state's record (R37, 60_exceptions.md R300). -/
  fault : FaultRecord
  /-- The parameter CLOCK_HZ (00_scope.md R9), which the host sets between steps (60_exceptions.md R326).
  The spec calls it an input of the step (R39); the model holds it here (log entry 5, DESIGN CHOICE, safe). -/
  clockHz : Nat
  /-- The model's own: how many draws CXKK has made, the argument of `Config.rnd` (log entry 3, DESIGN CHOICE, safe). -/
  draws : Nat
  /-- The model's own: the events emitted so far, oldest first (log entry 2, DESIGN CHOICE, safe). -/
  events : List Event
deriving DecidableEq, Repr

/-- Why the machine stops. -/
inductive Fault where
  /-- Raised by `step` alone, in a state that is already halted: a halted core takes no step (60_exceptions.md R305,
  R327), and the run has gone wrong (R306). It carries the record that fault entry wrote. Safe: no next state is given. -/
  | halted (cause : Cause) (pc : Word) (info : Nat)
deriving DecidableEq, Repr

/-- Why an instruction or a host operation has no meaning. -/
inductive Refusal where
  /-- Raised by an arm of `exec` for an instruction without a meaning yet; no arm does so. Safe. -/
  | notModelled (mnemonic : String)
  /-- Raised by SET_CLOCK(0), which the host must not send (60_exceptions.md R326), and by the timer accounting of a
  state whose CLOCK_HZ is 0, which no run reaches and for which R322's loop has no end (log entry 6). Safe. -/
  | clockZero
deriving DecidableEq, Repr

/-- The state right after reset at power-up (70_reset_and_hazards.md R350, R356): initialize's values, PAUSED, and
CLOCK_HZ = 1 760 000. No memory cell is listed, so memory reads as initialize leaves it: the font, then zeros. -/
def State.reset : State where
  v := Vector.replicate 16 0#8
  i := 0#12
  pc := 0x200#16
  sp := 0
  stack := Vector.replicate 16 0#16
  dt := 0#8
  st := 0#8
  key := Vector.replicate 16 false
  disp := Vector.replicate 32 (Vector.replicate 64 false)
  opcode := 0#16
  drawFlag := false
  mem := []
  acc := 0
  runMode := .paused
  halted := false
  fault := ⟨.none, 0#16, 0⟩
  clockHz := 1760000
  draws := 0
  events := []

end Sys2Proof.Machine
end

