-- ==== Sys2Proof/Machine/Ops.lean ====
section
/-! DEFINITION. The named operations over memory, registers, the stack, the display plane and the outputs, and taking a
fault (00_scope.md R12, R13; 20_memory.md; 60_exceptions.md R301). -/

namespace Sys2Proof.Machine

/-! ## Memory -/

/-- Glyphs 0 to 3 of the font set (70_reset_and_hazards.md R352). -/
def fontGlyphs0 : List Byte :=
  [0xF0#8, 0x90#8, 0x90#8, 0x90#8, 0xF0#8, 0x20#8, 0x60#8, 0x20#8, 0x20#8, 0x70#8,
   0xF0#8, 0x10#8, 0xF0#8, 0x80#8, 0xF0#8, 0xF0#8, 0x10#8, 0xF0#8, 0x10#8, 0xF0#8]

/-- Glyphs 4 to 7 of the font set (R352). -/
def fontGlyphs4 : List Byte :=
  [0x90#8, 0x90#8, 0xF0#8, 0x10#8, 0x10#8, 0xF0#8, 0x80#8, 0xF0#8, 0x10#8, 0xF0#8,
   0xF0#8, 0x80#8, 0xF0#8, 0x90#8, 0xF0#8, 0xF0#8, 0x10#8, 0x20#8, 0x40#8, 0x40#8]

/-- Glyphs 8 to B of the font set (R352). -/
def fontGlyphs8 : List Byte :=
  [0xF0#8, 0x90#8, 0xF0#8, 0x90#8, 0xF0#8, 0xF0#8, 0x90#8, 0xF0#8, 0x10#8, 0xF0#8,
   0xF0#8, 0x90#8, 0xF0#8, 0x90#8, 0x90#8, 0xE0#8, 0x90#8, 0xE0#8, 0x90#8, 0xE0#8]

/-- Glyphs C to F of the font set (R352). -/
def fontGlyphsC : List Byte :=
  [0xF0#8, 0x80#8, 0x80#8, 0x80#8, 0xF0#8, 0xE0#8, 0x90#8, 0x90#8, 0x90#8, 0xE0#8,
   0xF0#8, 0x80#8, 0xF0#8, 0x80#8, 0xF0#8, 0xF0#8, 0x80#8, 0xF0#8, 0x80#8, 0x80#8]

/-- The 80 bytes that initialize writes at 0x000 to 0x04F (R352; log entry 9, DESIGN CHOICE, unsafe). -/
def font : List Byte := fontGlyphs0 ++ fontGlyphs4 ++ fontGlyphs8 ++ fontGlyphsC

/-- What an address that the list of cells does not name reads as: the contents after initialize, the font below 0x050
and zero from there on (70_reset_and_hazards.md R350; 20_memory.md R69). -/
def unlistedByte (a : Nat) : Byte := font.getD a 0#8

/-- The byte at address a (00_scope.md R13). Accesses are checked before they are made (20_memory.md R64, R65), so this
read is total. -/
def readByte : List Host.Cell → Nat → Byte
  | [], a => unlistedByte a
  | (k, c) :: m, a => if a = k then c else readByte m a

/-- Write the byte b at address a, keeping the canonical form: addresses rise, and no cell holds what its address reads
as when unlisted. -/
def writeByte : List Host.Cell → Nat → Byte → List Host.Cell
  | [], a, b => if b = unlistedByte a then [] else [(a, b)]
  | (k, c) :: m, a, b =>
    if a < k then (if b = unlistedByte a then (k, c) :: m else (a, b) :: (k, c) :: m)
    else if a = k then (if b = unlistedByte a then m else (k, b) :: m)
    else (k, c) :: writeByte m a b

/-- The n bytes from address base on, in rising order. -/
def readBytes (m : List Host.Cell) (base : Nat) : Nat → List Byte
  | 0 => []
  | n + 1 => readByte m base :: readBytes m (base + 1) n

/-- Write the bytes at base, base + 1, ... in that order. -/
def writeBytes (m : List Host.Cell) (base : Nat) : List Byte → List Host.Cell
  | [] => m
  | b :: bs => writeBytes (writeByte m base b) (base + 1) bs

/-- Every cell lies at an address from lo to 0xFFF, the addresses rise strictly, and no cell holds its unlisted value. -/
def Memory.wfFrom (lo : Nat) : List Host.Cell → Bool
  | [] => true
  | (k, c) :: m => decide (lo ≤ k) && decide (k < 4096) && c != unlistedByte k && Memory.wfFrom (k + 1) m

/-- The canonical form of memory, over the 4096 addresses of 20_memory.md R60. -/
def Memory.wf (m : List Host.Cell) : Bool := Memory.wfFrom 0 m

/-- The check of 20_memory.md R65 on the n bytes from base on, for n at least 1: the last one is an address. -/
def memCheck (base : Addr) (n : Nat) : Bool := decide (base.toNat + n - 1 ≤ 0xFFF)

/-- The fetch check of 20_memory.md R64: both bytes at pc are addresses. -/
def fetchCheck (s : State) : Bool := decide (s.pc.toNat ≤ 0xFFE)

/-- Fetch16 at pc (20_memory.md R61, 40_step.md R122). -/
def fetch16 (s : State) : Word := composeWord (readByte s.mem s.pc.toNat) (readByte s.mem (s.pc.toNat + 1))

/-! ## Registers, pc and stack -/

/-- Read V[x] (10_state.md R20). -/
def State.getV (s : State) (x : Nibble) : Byte := s.v[x.toNat]'(x.isLt)

/-- The registers with V[x] set to b. No register is hard-wired (10_state.md R20). -/
def setReg (v : Regs) (x : Nibble) (b : Byte) : Regs := v.set x.toNat b x.isLt

/-- Write V[x] (10_state.md R20). -/
def State.setV (s : State) (x : Nibble) (b : Byte) : State := { s with v := setReg s.v x b }

/-- Write pc; each operation does so itself (10_state.md R25). -/
def State.setPc (s : State) (p : Word) : State := { s with pc := p }

/-- The ordinary advance pc <- pc + 2 (10_state.md R25). -/
def State.advance (s : State) : State := s.setPc (s.pc + 2#16)

/-- The registers with V[k], V[k+1], ... set to the bytes in order; bytes past V[15] have no register. -/
def loadRegs (v : Regs) (k : Nat) : List Byte → Regs
  | [] => v
  | b :: bs => loadRegs (v.setIfInBounds k b) (k + 1) bs

/-- The values of V[0] to V[x], in order. -/
def regsUpTo (v : Regs) (x : Nibble) : List Byte := v.toList.take (x.toNat + 1)

/-! ## Events and faults -/

/-- The numeric codes of the causes (60_exceptions.md R302). -/
def causeCode : Cause → Nat
  | .none => 0
  | .fetchOob => 1
  | .memOob => 2
  | .stackOverflow => 3
  | .stackUnderflow => 4
  | .indexOob => 5
  | .fontIndex => 6
  | .keyIndex => 7

/-- Emit an output event (10_state.md R45). -/
def State.emit (s : State) (e : Event) : State := { s with events := s.events ++ [e] }

/-- Fault entry, `raise Fault(cause, info)` (60_exceptions.md R301): the core halts, the record holds the cause, the
address of the instruction and info, and the event is emitted; nothing else is written. -/
def raiseFault (cause : Cause) (info : Nat) (s : State) : State :=
  { s with
    halted := true
    fault := ⟨cause, s.pc, info⟩
    events := s.events ++ [.fault cause s.pc info] }

/-- MEM_OOB for a range from base on: info is the first address above 0xFFF it would touch (20_memory.md R65). -/
def raiseMemOob (base : Addr) (s : State) : State := raiseFault .memOob (max base.toNat 0x1000) s

/-! ## Display plane -/

/-- The row that y + row wraps to (46_display.md R272, R274). -/
def wrapRow (y : Byte) (row : Nat) : Fin 32 := ⟨(y.toNat + row) % 32, Nat.mod_lt _ (by decide)⟩

/-- The column that x + col wraps to (46_display.md R272, R274). -/
def wrapCol (x : Byte) (col : Nat) : Fin 64 := ⟨(x.toNat + col) % 64, Nat.mod_lt _ (by decide)⟩

/-- The pixel `disp[r][c]` (10_state.md R31). -/
def pixelAt (d : Plane) (r : Fin 32) (c : Fin 64) : Bool := d[r][c]

/-- The plane with one pixel set to b. -/
def setPixel (d : Plane) (r : Fin 32) (c : Fin 64) (b : Bool) : Plane := d.set r (d[r].set c b)

/-- The blank plane. -/
def blankPlane : Plane := Vector.replicate 32 (Vector.replicate 64 false)

/-- One sprite bit at (row, col): where it is 1, a set pixel is a collision and the pixel is toggled
(46_display.md R272, R273). -/
def blitBit (x y : Byte) (row : Nat) (bits : Byte) (p : Plane × Bool) (col : Nat) : Plane × Bool :=
  if bits.getLsbD (7 - col) then
    (setPixel p.1 (wrapRow y row) (wrapCol x col) (!(pixelAt p.1 (wrapRow y row) (wrapCol x col))),
     p.2 || pixelAt p.1 (wrapRow y row) (wrapCol x col))
  else p

/-- One sprite row: its 8 bits, the most significant leftmost (46_display.md R272). -/
def blitRow (x y : Byte) (row : Nat) (bits : Byte) (p : Plane × Bool) : Plane × Bool :=
  (List.range 8).foldl (blitBit x y row bits) p

/-- The sprite's rows from number `row` on, top to bottom (46_display.md R272). -/
def blitRows (x y : Byte) (row : Nat) : List Byte → Plane × Bool → Plane × Bool
  | [], p => p
  | bits :: rest, p => blitRows x y (row + 1) rest (blitRow x y row bits p)

/-- DrawSprite (46_display.md R272): the plane after the blit and whether any pixel went from set to unset (R273). -/
def drawSprite (x y : Byte) (rows : List Byte) (d : Plane) : Plane × Bool := blitRows x y 0 rows (d, false)

end Sys2Proof.Machine
end

