-- ==== Sys2Proof/Machine/Flags.lean ====
section
/-! DEFINITION. The results and the VF values of the arithmetic forms (43_alu.md R180, R181, R188 to R192). Operands are
taken as exact naturals and narrowed at the end (00_scope.md R11). -/

namespace Sys2Proof.Machine

/-- A flag as the value VF takes. -/
def flagByte (b : Bool) : Byte := if b then 1#8 else 0#8

/-- VF where X = F: the flag under FLAG_LAST, the result under RESULT_LAST (43_alu.md R181). -/
def vfChoice (o : FlagOrder) (r f : Byte) : Byte :=
  match o with
  | .flagLast => f
  | .resultLast => r

/-- The registers after WriteRF(X, r, f) under the order o (43_alu.md R181). Where X is not F the order plays no part,
so it is consulted for X = F only; Laws/Regs.lean shows this equal to R181's two writes in either order. -/
def writeRFRegs (o : FlagOrder) (x : Nibble) (r f : Byte) (v : Regs) : Regs :=
  if x = 0xF#4 then setReg v 0xF#4 (vfChoice o r f) else setReg (setReg v x r) 0xF#4 f

/-- WriteRF(X, r, f) (43_alu.md R181) under the parameter FLAG_ORDER. -/
def State.writeRF (s : State) (x : Nibble) (r f : Byte) : State :=
  { s with v := writeRFRegs Config.flagOrder x r f s.v }

/-- a + b modulo 256 (43_alu.md R183, R188). -/
def addResult (a b : Byte) : Byte := BitVec.ofNat 8 ((a.toNat + b.toNat) % 256)

/-- The carry out of a + b (43_alu.md R188). -/
def addCarry (a b : Byte) : Bool := decide (a.toNat + b.toNat > 255)

/-- a - b modulo 256, wrapping into 0..255 (43_alu.md R180, R189). -/
def subResult (a b : Byte) : Byte := BitVec.ofNat 8 ((a.toNat + 256 - b.toNat) % 256)

/-- NOT borrow of a - b: a borrow is needed where a < b (43_alu.md R189, R191; 90_conflicts.md C4). -/
def subNoBorrow (a b : Byte) : Bool := !decide (a.toNat < b.toNat)

/-- a shifted right by one (43_alu.md R190). -/
def shrResult (a : Byte) : Byte := a >>> 1

/-- The bit a right shift shifts out (43_alu.md R190). -/
def shrOut (a : Byte) : Bool := a.getLsbD 0

/-- a shifted left by one, modulo 256 (43_alu.md R192). -/
def shlResult (a : Byte) : Byte := a <<< 1

/-- The bit a left shift shifts out (43_alu.md R192). -/
def shlOut (a : Byte) : Bool := a.getLsbD 7

/-- One decrement of a timer, floored at 0 (60_exceptions.md R323). -/
def timerDown (t : Byte) : Byte := if t = 0#8 then 0#8 else t - 1#8

end Sys2Proof.Machine
end

