-- ==== Sys2Proof/Machine/Alu.lean ====
section
/-! DEFINITION. Register loads, arithmetic, logic and the random draw (43_alu.md). No instruction here raises a fault. -/

namespace Sys2Proof.Machine

/-- LD VX, KK (R182). -/
def execLdImm (x : Nibble) (kk : Byte) (s : State) : Host.Outcome State Fault Refusal :=
  .next (s.setV x kk).advance

/-- ADD VX, KK (R183): no flag. -/
def execAddImm (x : Nibble) (kk : Byte) (s : State) : Host.Outcome State Fault Refusal :=
  .next (s.setV x (addResult (s.getV x) kk)).advance

/-- LD VX, VY (R184). -/
def execLdReg (x y : Nibble) (s : State) : Host.Outcome State Fault Refusal :=
  .next (s.setV x (s.getV y)).advance

/-- OR VX, VY (R185): no flag. -/
def execOrReg (x y : Nibble) (s : State) : Host.Outcome State Fault Refusal :=
  .next (s.setV x (s.getV x ||| s.getV y)).advance

/-- AND VX, VY (R186): no flag. -/
def execAndReg (x y : Nibble) (s : State) : Host.Outcome State Fault Refusal :=
  .next (s.setV x (s.getV x &&& s.getV y)).advance

/-- XOR VX, VY (R187): no flag. -/
def execXorReg (x y : Nibble) (s : State) : Host.Outcome State Fault Refusal :=
  .next (s.setV x (s.getV x ^^^ s.getV y)).advance

/-- ADD VX, VY (R188): VF is the carry out. -/
def execAddReg (x y : Nibble) (s : State) : Host.Outcome State Fault Refusal :=
  .next (s.writeRF x (addResult (s.getV x) (s.getV y)) (flagByte (addCarry (s.getV x) (s.getV y)))).advance

/-- SUB VX, VY (R189): VF is NOT borrow. -/
def execSub (x y : Nibble) (s : State) : Host.Outcome State Fault Refusal :=
  .next (s.writeRF x (subResult (s.getV x) (s.getV y)) (flagByte (subNoBorrow (s.getV x) (s.getV y)))).advance

/-- SHR VX (R190): VF is the bit shifted out; VY is not read. -/
def execShr (x _y : Nibble) (s : State) : Host.Outcome State Fault Refusal :=
  .next (s.writeRF x (shrResult (s.getV x)) (flagByte (shrOut (s.getV x)))).advance

/-- SUBN VX, VY (R191): VY - VX, VF is NOT borrow. -/
def execSubn (x y : Nibble) (s : State) : Host.Outcome State Fault Refusal :=
  .next (s.writeRF x (subResult (s.getV y) (s.getV x)) (flagByte (subNoBorrow (s.getV y) (s.getV x)))).advance

/-- SHL VX (R192): VF is the bit shifted out; VY is not read. -/
def execShl (x _y : Nibble) (s : State) : Host.Outcome State Fault Refusal :=
  .next (s.writeRF x (shlResult (s.getV x)) (flagByte (shlOut (s.getV x)))).advance

/-- RND VX, KK (R193): the draw is the free value `Config.rnd`, a fresh one each time (log entry 3). -/
def execRnd (x : Nibble) (kk : Byte) (s : State) : Host.Outcome State Fault Refusal :=
  .next { (s.setV x (Config.rnd s.draws &&& kk)).advance with draws := s.draws + 1 }

end Sys2Proof.Machine
end

