-- ==== Sys2Proof/Machine/Operands.lean ====
section
/-! DEFINITION. The operand forms of the core beside plain registers and immediates: skips, key indices, the keyboard
wait and the byte range at I (42_skips.md R160, R165; 45_timers_keys.md R251; 44_index_memory.md R226). -/

namespace Sys2Proof.Machine

/-- Skip(cond) (42_skips.md R160): pc + 4 where the condition holds, pc + 2 otherwise. -/
def skipIf (cond : Bool) (s : State) : State :=
  { s with pc := if cond then s.pc + 4#16 else s.pc + 2#16 }

/-- The state of key k, for a byte used as a key index; none where no such key exists (42_skips.md R165). -/
def keyAt (s : State) (k : Byte) : Option Bool := s.key[k.toNat]?

/-- The position of the first true in a list whose positions count from k. -/
def firstTrue (k : Nat) : List Bool → Option Nat
  | [] => none
  | b :: bs => if b then some k else firstTrue (k + 1) bs

/-- The lowest pressed key (45_timers_keys.md R251), none where no key is pressed. -/
def lowestKey (s : State) : Option Nat := firstTrue 0 s.key.toList

/-- The n bytes at I, the one data addressing mode (44_index_memory.md R226). -/
def bytesAtI (s : State) (n : Nat) : List Byte := readBytes s.mem s.i.toNat n

/-- The state with the bytes written at I, I + 1, ... (44_index_memory.md R226). -/
def State.storeAtI (s : State) (bs : List Byte) : State := { s with mem := writeBytes s.mem s.i.toNat bs }

/-- The three decimal digits of a byte, hundreds first (44_index_memory.md R223). -/
def decimalDigits (v : Byte) : List Byte :=
  [BitVec.ofNat 8 (v.toNat / 100), BitVec.ofNat 8 (v.toNat / 10 % 10), BitVec.ofNat 8 (v.toNat % 10)]

end Sys2Proof.Machine
end

