-- ==== Sys2Proof/Machine/ControlFlow.lean ====
section
/-! DEFINITION. Control transfer (41_control_flow.md) and the effect of an unknown opcode (40_step.md R126). -/

namespace Sys2Proof.Machine

/-- SYS NNN (R140): a no-op; NNN is ignored. -/
def execSys (_nnn : Addr) (s : State) : Host.Outcome State Fault Refusal :=
  .next s.advance

/-- RET (R141): pop the return address; the entry keeps its value. -/
def execRet (s : State) : Host.Outcome State Fault Refusal :=
  if h : 1 ≤ s.sp.val then
    .next { s with
      sp := ⟨s.sp.val - 1, by omega⟩
      pc := s.stack[s.sp.val - 1]'(by omega) }
  else .next (raiseFault .stackUnderflow s.sp.val s)

/-- JP NNN (R142). -/
def execJp (nnn : Addr) (s : State) : Host.Outcome State Fault Refusal :=
  .next (s.setPc (nnn.setWidth 16))

/-- CALL NNN (R143): push the address of the next instruction. -/
def execCall (nnn : Addr) (s : State) : Host.Outcome State Fault Refusal :=
  if h : s.sp.val ≤ 15 then
    .next { s with
      stack := s.stack.set s.sp.val (s.pc + 2#16) (by omega)
      sp := ⟨s.sp.val + 1, by omega⟩
      pc := nnn.setWidth 16 }
  else .next (raiseFault .stackOverflow s.sp.val s)

/-- JP V0, NNN (R144): the sum is exact, 0x000 to 0x10FE. -/
def execJpV0 (nnn : Addr) (s : State) : Host.Outcome State Fault Refusal :=
  .next (s.setPc (BitVec.ofNat 16 (nnn.toNat + (s.getV 0x0#4).toNat)))

/-- The effect of a word that decodes to UNKNOWN (40_step.md R126): the diagnostic, and pc + 2. -/
def execUnknown (op : Word) (s : State) : Host.Outcome State Fault Refusal :=
  .next (s.emit (.unknownOpcode s.pc op)).advance

end Sys2Proof.Machine
end

