-- ==== Sys2Proof/Machine/Display.lean ====
section
/-! DEFINITION. The display instructions (46_display.md R270, R271); the compositor they call is in Ops.lean. -/

namespace Sys2Proof.Machine

/-- CLS (R270): VF is unchanged. -/
def execCls (s : State) : Host.Outcome State Fault Refusal :=
  .next { s.advance with disp := blankPlane, drawFlag := true }

/-- DRW VX, VY, N (R271): the coordinates are read before VF is written; N = 0 reads no memory and draws nothing. -/
def execDrw (x y n : Nibble) (s : State) : Host.Outcome State Fault Refusal :=
  if n.toNat = 0 || memCheck s.i n.toNat then
    .next { s.advance with
      disp := (drawSprite (s.getV x) (s.getV y) (bytesAtI s n.toNat) s.disp).1
      v := setReg s.v 0xF#4 (flagByte (drawSprite (s.getV x) (s.getV y) (bytesAtI s n.toNat) s.disp).2)
      drawFlag := true }
  else .next (raiseMemOob s.i s)

end Sys2Proof.Machine
end

