-- ==== Sys2Proof/Machine/IndexMemory.lean ====
section
/-! DEFINITION. The index register and memory transfers (44_index_memory.md). The whole byte range is checked before any
access (20_memory.md R65). -/

namespace Sys2Proof.Machine

/-- LD I, NNN (R220). -/
def execLdI (nnn : Addr) (s : State) : Host.Outcome State Fault Refusal :=
  .next { s.advance with i := nnn }

/-- ADD I, VX (R221): a sum above 0xFFF faults INDEX_OOB; VF is not written. -/
def execAddI (x : Nibble) (s : State) : Host.Outcome State Fault Refusal :=
  if s.i.toNat + (s.getV x).toNat ≤ 0xFFF then
    .next { s.advance with i := BitVec.ofNat 12 (s.i.toNat + (s.getV x).toNat) }
  else .next (raiseFault .indexOob (s.i.toNat + (s.getV x).toNat) s)

/-- LD F, VX (R222): the address of a glyph; a digit above 0xF faults FONT_INDEX. -/
def execLdF (x : Nibble) (s : State) : Host.Outcome State Fault Refusal :=
  if (s.getV x).toNat ≤ 0xF then
    .next { s.advance with i := BitVec.ofNat 12 (5 * (s.getV x).toNat) }
  else .next (raiseFault .fontIndex (s.getV x).toNat s)

/-- LD B, VX (R223): three decimal digits at I, I + 1, I + 2. -/
def execLdB (x : Nibble) (s : State) : Host.Outcome State Fault Refusal :=
  if memCheck s.i 3 then .next (s.storeAtI (decimalDigits (s.getV x))).advance
  else .next (raiseMemOob s.i s)

/-- LD [I], VX (R224): store V0 to VX; I is unchanged. -/
def execLdMemV (x : Nibble) (s : State) : Host.Outcome State Fault Refusal :=
  if memCheck s.i (x.toNat + 1) then .next (s.storeAtI (regsUpTo s.v x)).advance
  else .next (raiseMemOob s.i s)

/-- LD VX, [I] (R225): load V0 to VX; I is unchanged. -/
def execLdVMem (x : Nibble) (s : State) : Host.Outcome State Fault Refusal :=
  if memCheck s.i (x.toNat + 1) then
    .next { s.advance with v := loadRegs s.v 0 (bytesAtI s (x.toNat + 1)) }
  else .next (raiseMemOob s.i s)

end Sys2Proof.Machine
end

