-- ==== Sys2Proof/Machine/Skips.lean ====
section
/-! DEFINITION. The conditional skips (42_skips.md). -/

namespace Sys2Proof.Machine

/-- SE VX, KK (R161). -/
def execSeImm (x : Nibble) (kk : Byte) (s : State) : Host.Outcome State Fault Refusal :=
  .next (skipIf (s.getV x == kk) s)

/-- SNE VX, KK (R162). -/
def execSneImm (x : Nibble) (kk : Byte) (s : State) : Host.Outcome State Fault Refusal :=
  .next (skipIf (s.getV x != kk) s)

/-- SE VX, VY (R163). -/
def execSeReg (x y : Nibble) (s : State) : Host.Outcome State Fault Refusal :=
  .next (skipIf (s.getV x == s.getV y) s)

/-- SNE VX, VY (R164). -/
def execSneReg (x y : Nibble) (s : State) : Host.Outcome State Fault Refusal :=
  .next (skipIf (s.getV x != s.getV y) s)

/-- SKP VX (R165). -/
def execSkp (x : Nibble) (s : State) : Host.Outcome State Fault Refusal :=
  match keyAt s (s.getV x) with
  | some pressed => .next (skipIf pressed s)
  | none => .next (raiseFault .keyIndex (s.getV x).toNat s)

/-- SKNP VX (R166). -/
def execSknp (x : Nibble) (s : State) : Host.Outcome State Fault Refusal :=
  match keyAt s (s.getV x) with
  | some pressed => .next (skipIf (!pressed) s)
  | none => .next (raiseFault .keyIndex (s.getV x).toNat s)

end Sys2Proof.Machine
end

