-- ==== Sys2Proof/Machine/TimersKeys.lean ====
section
/-! DEFINITION. Timer and keyboard instructions (45_timers_keys.md). None touches memory or raises a fault. -/

namespace Sys2Proof.Machine

/-- LD VX, DT (R250): DT before this step's timer accounting. -/
def execLdVDt (x : Nibble) (s : State) : Host.Outcome State Fault Refusal :=
  .next (s.setV x s.dt).advance

/-- LD VX, K (R251): the lowest pressed key; with none pressed nothing is written and pc stays. -/
def execLdVK (x : Nibble) (s : State) : Host.Outcome State Fault Refusal :=
  match lowestKey s with
  | some k => .next (s.setV x (BitVec.ofNat 8 k)).advance
  | none => .next s

/-- LD DT, VX (R252). -/
def execLdDtV (x : Nibble) (s : State) : Host.Outcome State Fault Refusal :=
  .next { s.advance with dt := s.getV x }

/-- LD ST, VX (R253). -/
def execLdStV (x : Nibble) (s : State) : Host.Outcome State Fault Refusal :=
  .next { s.advance with st := s.getV x }

end Sys2Proof.Machine
end

