-- ==== Sys2Proof/Machine/Scheduler.lean ====
section
/-! DEFINITION. The Cycle Scheduler: the timers' tick and accounting (60_exceptions.md R322 to R324) and one complete
fetch-decode-execute cycle with its accounting (40_step.md R120). -/

namespace Sys2Proof.Machine

/-- One tick (60_exceptions.md R323): a tone where ST goes from 1 to 0 (R324), and both timers count down. -/
def tick (s : State) : State :=
  { s with
    dt := timerDown s.dt
    st := timerDown s.st
    events := if s.st = 1#8 then s.events ++ [.tone 1000 50] else s.events }

/-- The loop of 60_exceptions.md R322: while acc >= F, subtract F and tick. Each turn takes at least 1 from acc where
F is at least 1, so acc turns of fuel are enough. -/
def timerLoop : Nat → State → State
  | 0, s => s
  | fuel + 1, s =>
    if s.clockHz ≤ s.acc then timerLoop fuel (tick { s with acc := s.acc - s.clockHz }) else s

/-- TimerAccount (60_exceptions.md R322) with F the state's CLOCK_HZ. For F = 0, which the host must not send (R326),
the loop has no end: refused by name (log entry 6). -/
def timerAccount (s : State) : Host.Outcome State Fault Refusal :=
  if s.clockHz = 0 then .refused .clockZero
  else .next (timerLoop (s.acc + 60) { s with acc := s.acc + 60 })

/-- Execute's outcome, followed by the timer accounting where the instruction did not fault
(40_step.md R120, R127, R128). -/
def finishCycle (o : Host.Outcome State Fault Refusal) : Host.Outcome State Fault Refusal :=
  match o with
  | .next t => if t.halted then .next t else timerAccount t
  | .fault r => .fault r
  | .refused r => .refused r

/-- Decode and execute a fetched word, opcode register already written: an instruction's own rule, or the rule of an
unknown opcode (40_step.md R124 to R126). -/
def execWord (op : Word) (s : State) : Host.Outcome State Fault Refusal :=
  match decode op with
  | .ok i => exec i s
  | .error _ => execUnknown op s

/-- Step(rnd, F) (40_step.md R120): the fetch check, the fetch, the opcode write (R123), decode and execute, and the
timer accounting. -/
def cycle (s : State) : Host.Outcome State Fault Refusal :=
  if fetchCheck s then finishCycle (execWord (fetch16 s) { s with opcode := fetch16 s })
  else .next (raiseFault .fetchOob s.pc.toNat s)

/-- One turn of the scheduler (40_step.md R121): a halted core takes no step (60_exceptions.md R305, R306, R327), a
paused one waits unchanged (R325), a running one performs a cycle. -/
def schedule (s : State) : Host.Outcome State Fault Refusal :=
  if s.halted then .fault (.halted s.fault.cause s.fault.pc s.fault.info)
  else
    match s.runMode with
    | .paused => .next s
    | .running => cycle s

/-- The state with the word w placed where `schedule` fetches next, and everything that fetch needs: a core that runs
and is not halted, and a pc that can be fetched at (log entry 7). -/
def placeWord (s : State) (w : Word) : State :=
  let p : Word := if s.pc.toNat ≤ 0xFFE then s.pc else 0x200#16
  { s with
    runMode := .running
    halted := false
    fault := ⟨.none, 0#16, 0⟩
    pc := p
    mem := writeBytes s.mem p.toNat [highByte w, lowByte w] }

end Sys2Proof.Machine
end

