-- ==== Sys2Proof/Machine/Step.lean ====
section
/-! DEFINITION. One step of the machine, and where its next instruction is placed. Both only call Scheduler.lean. -/

namespace Sys2Proof.Machine

/-- One step: one turn of the Cycle Scheduler (40_step.md R121). -/
def step (s : State) : Host.Outcome State Fault Refusal := schedule s

/-- s with the instruction whose bits are w, numbered as spec/opcode_table.json numbers them, stored where `step`
fetches next; the core is set RUNNING, as a host does before a run (70_reset_and_hazards.md R357; log entry 7). -/
def State.withFetchWord (s : State) (nbits w : Nat) : State := placeWord s (tableWord nbits w)

end Sys2Proof.Machine
end

