-- ==== Sys2Proof/Machine/HostOps.lean ====
section
/-! DEFINITION. Initialize and the host's operations (10_state.md R44), which take place only between steps (R47), and a
run in which steps and host operations alternate as the host pleases (log entry 8). -/

namespace Sys2Proof.Machine

/-- Initialize (70_reset_and_hazards.md R350): every element at its reset value; runMode and CLOCK_HZ are not changed,
nor are the model's own draw counter and event list. -/
def initState (s : State) : State :=
  { s with
    mem := []
    v := Vector.replicate 16 0#8
    stack := Vector.replicate 16 0#16
    key := Vector.replicate 16 false
    i := 0#12
    pc := 0x200#16
    sp := 0
    dt := 0#8
    st := 0#8
    opcode := 0#16
    disp := blankPlane
    drawFlag := false
    acc := 0
    halted := false
    fault := ⟨.none, 0#16, 0⟩ }

/-- What READ_STATE returns (60_exceptions.md R333). -/
structure Inspector where
  opcode : Word
  pc : Word
  i : Addr
  dt : Byte
  st : Byte
  v : Regs
  clockHz : Nat
  halted : Bool
  fault : FaultRecord
deriving DecidableEq, Repr

/-- The host's operations (10_state.md R44). -/
inductive HostOp where
  /-- LOAD(bytes) (70_reset_and_hazards.md R353). -/
  | load (bytes : List Byte)
  /-- RESET (R355). -/
  | reset
  /-- PAUSE (60_exceptions.md R325). -/
  | pause
  /-- RESUME (R325). -/
  | resume
  /-- SINGLE_STEP (R325). -/
  | singleStep
  /-- SET_CLOCK(F) (R326). -/
  | setClock (f : Nat)
  /-- KEY(k, b) (R330). -/
  | key (k : Nibble) (b : Bool)
  /-- CLEAR_DRAW_FLAG (46_display.md R276). -/
  | clearDrawFlag
  /-- RENDER() (46_display.md R275). -/
  | render
  /-- READ_STATE() (60_exceptions.md R333). -/
  | readState
deriving DecidableEq, Repr

/-- What a host operation reports back. The spec gives three reports: LOAD_TOO_BIG, the pixels and the inspector's view; `done`
stands for none of them (log entry 17). -/
inductive HostReply where
  /-- No report. It does not say that the operation had an effect (log entry 17, DESIGN CHOICE, unsafe). -/
  | done
  /-- The ROM is longer than 3584 bytes (70_reset_and_hazards.md R353, R354). -/
  | loadTooBig
  /-- The 64 x 32 pixel buffer (46_display.md R275). -/
  | pixels (d : Plane)
  /-- The inspector's view (60_exceptions.md R333). -/
  | view (v : Inspector)
deriving DecidableEq, Repr

/-- The state after LOAD(bytes) (R353): initialize always comes first; an oversized ROM is not copied (R354). -/
def hostLoad (bytes : List Byte) (s : State) : State :=
  if bytes.length > 3584 then initState s
  else { initState s with mem := writeBytes (initState s).mem 0x200 bytes }

/-- What LOAD(bytes) reports (R353): LOAD_TOO_BIG, and nothing where the ROM fits (log entry 17). -/
def loadReply (bytes : List Byte) : HostReply := if bytes.length > 3584 then .loadTooBig else .done

/-- SINGLE_STEP (60_exceptions.md R325): exactly one cycle while PAUSED and not halted, leaving runMode PAUSED; otherwise
it does nothing (R305; while RUNNING: log entry 13). -/
def hostSingleStep (s : State) : Host.Outcome State Fault Refusal :=
  match s.runMode with
  | .paused => if s.halted then .next s else cycle s
  | .running => .next s

/-- SET_CLOCK(F) (R326): acc is unchanged; F = 0 is refused. -/
def hostSetClock (f : Nat) (s : State) : Host.Outcome State Fault Refusal :=
  if f = 0 then .refused .clockZero else .next { s with clockHz := f }

/-- KEY(k, b) (R330). -/
def hostKey (k : Nibble) (b : Bool) (s : State) : State := { s with key := s.key.set k.toNat b k.isLt }

/-- What READ_STATE shows of a state (R333). -/
def inspect (s : State) : Inspector :=
  { opcode := s.opcode, pc := s.pc, i := s.i, dt := s.dt, st := s.st, v := s.v, clockHz := s.clockHz,
    halted := s.halted, fault := s.fault }

/-- One host operation: the state it leaves, or why it has none. -/
def hostOp (op : HostOp) (s : State) : Host.Outcome State Fault Refusal :=
  match op with
  | .load bytes => .next (hostLoad bytes s)
  | .reset => .next (initState s)
  | .pause => .next { s with runMode := .paused }
  | .resume => .next { s with runMode := .running }
  | .singleStep => hostSingleStep s
  | .setClock f => hostSetClock f s
  | .key k b => .next (hostKey k b s)
  | .clearDrawFlag => .next { s with drawFlag := false }
  | .render => .next s
  | .readState => .next s

/-- What a host operation reports, on the state it is given. Where the spec gives no report the model answers `done`, also for
a SET_CLOCK(0) that `hostOp` refuses and a SINGLE_STEP that leaves the state (log entry 17, DESIGN CHOICE, unsafe). -/
def hostReply (op : HostOp) (s : State) : HostReply :=
  match op with
  | .load bytes => loadReply bytes
  | .render => .pixels s.disp
  | .readState => .view (inspect s)
  | .reset | .pause | .resume | .singleStep | .setClock _ | .key _ _ | .clearDrawFlag => .done

/-- One event in the life of the machine: a turn of the scheduler, or a host operation between two of them. -/
inductive Action where
  | turn
  | host (op : HostOp)
deriving DecidableEq, Repr

/-- Perform one action. -/
def act (a : Action) (s : State) : Host.Outcome State Fault Refusal :=
  match a with
  | .turn => step s
  | .host op => hostOp op s

/-- Perform actions in order, stopping at the first fault or refusal. -/
def runActions : List Action → State → Host.Outcome State Fault Refusal
  | [], s => .next s
  | a :: rest, s =>
    match act a s with
    | .next t => runActions rest t
    | .fault r => .fault r
    | .refused r => .refused r

end Sys2Proof.Machine
end

