-- ==== Sys2Proof/Safety.lean ====
section
/-! DEFINITION. What counts as a safe run, which states a run can reach, and the invariant of all of them. -/

namespace Sys2Proof

open Sys2Proof.Machine

/-- A state in which the run has not gone wrong: a halted core is never a good end (60_exceptions.md R306). -/
def Safe (s : State) : Prop := s.halted = false

/-- The states that turns of the scheduler and host operations reach from power-up (70_reset_and_hazards.md R356). -/
inductive Reachable : State → Prop where
  | reset : Reachable State.reset
  | act {s t : State} (a : Action) : Reachable s → Machine.act a s = .next t → Reachable t

/-- The bits of the fault state agree: halted exactly when a cause is recorded, and the cleared record is (NONE, 0, 0)
(60_exceptions.md R300, R301). -/
def FaultStateOk (s : State) : Prop :=
  (s.halted = true ↔ s.fault.cause ≠ .none) ∧ (s.halted = false → s.fault = ⟨.none, 0#16, 0⟩)

/-- Every stack entry is at most 0x1000, the largest return address CALL pushes (10_state.md R26). -/
def StackOk (s : State) : Prop := ∀ k : Fin 16, s.stack[k].toNat ≤ 0x1000

/-- The invariant of the machine: memory in canonical form; no pc above 0x10FE (10_state.md R24); no stack entry above
0x1000 (R26); a consistent fault state (60_exceptions.md R300); CLOCK_HZ at least 1 (R326). -/
structure Inv (s : State) : Prop where
  mem : Memory.wf s.mem = true
  pc : s.pc.toNat ≤ 0x10FE
  stack : StackOk s
  fault : FaultStateOk s
  clock : 1 ≤ s.clockHz

end Sys2Proof
end

