-- ==== Sys2Proof/Certificates/Slice0/Obligations.lean ====
section
/-! DEFINITION. The statements for the provers. Each obligation formalises the rules of spec/ that its docstring names;
OBLIGATIONS.json lists them. Instruction statements hold for every operand and every state unless a premise stands in the
statement; a next state is described whole: the fields named, and every other field as before. -/

namespace Sys2Proof.Claims

open Sys2Proof.Machine

/-- Every byte of memory reads as before. -/
def SameBytes (s t : State) : Prop := ∀ a, readByte t.mem a = readByte s.mem a

/-- Nothing but pc may differ. -/
def OnlyPc (s t : State) : Prop := t = { s with pc := t.pc } ∧ SameBytes s t

/-- Nothing but the general registers and pc may differ. -/
def OnlyRegsAndPc (s t : State) : Prop := t = { s with v := t.v, pc := t.pc } ∧ SameBytes s t

/-- Nothing but I and pc may differ. -/
def OnlyIndexAndPc (s t : State) : Prop := t = { s with i := t.i, pc := t.pc } ∧ SameBytes s t

/-- Nothing but memory and pc may differ, and no byte outside the len addresses from base on. -/
def OnlyBytesAndPc (base len : Nat) (s t : State) : Prop :=
  t = { s with mem := t.mem, pc := t.pc } ∧
    ∀ a, a < base ∨ base + len ≤ a → readByte t.mem a = readByte s.mem a

/-- Every register but V[x] is as before. -/
def OtherRegsSame (x : Nibble) (s t : State) : Prop := ∀ y, y ≠ x → t.getV y = s.getV y

/-- t is s after fault entry with the given cause and info (60_exceptions.md R301): halted, the record with the pc of
the instruction, the event FAULT at the end of the model's list of events (log entries 1 and 2), and nothing else. -/
def TakesFault (cause : Cause) (info : Nat) (s t : State) : Prop :=
  t = { s with
    halted := true
    fault := ⟨cause, s.pc, info⟩
    events := s.events ++ [.fault cause s.pc info] } ∧ SameBytes s t

/-- The registers after WriteRF(x, r, f) (43_alu.md R181): V[x] is r and VF is f where x is not F; where x is F, VF is f
under FLAG_LAST and r under RESULT_LAST; every other register is as before. -/
def RegsAfterRF (x : Nibble) (r f : Byte) (s t : State) : Prop :=
  (x ≠ 0xF#4 → t.getV x = r ∧ t.getV 0xF#4 = f) ∧
  (x = 0xF#4 → t.getV 0xF#4 = match Config.flagOrder with | .flagLast => f | .resultLast => r) ∧
  (∀ y, y ≠ x → y ≠ 0xF#4 → t.getV y = s.getV y)

/-- Every word of class c decodes to mk of its low 12 bits. -/
def EncodesNNN (c : Nat) (mk : Addr → Instr) : Prop :=
  ∀ (w : Word) (nnn : Addr), w.toNat = c * 0x1000 + nnn.toNat → decode w = .ok (mk nnn)

/-- Every word of class c decodes to mk of its nibble X and its byte KK. -/
def EncodesXKK (c : Nat) (mk : Nibble → Byte → Instr) : Prop :=
  ∀ (w : Word) (x : Nibble) (kk : Byte),
    w.toNat = c * 0x1000 + x.toNat * 0x100 + kk.toNat → decode w = .ok (mk x kk)

/-- Every word of class c with low nibble n decodes to mk of its nibbles X and Y. -/
def EncodesXY (c n : Nat) (mk : Nibble → Nibble → Instr) : Prop :=
  ∀ (w : Word) (x y : Nibble),
    w.toNat = c * 0x1000 + x.toNat * 0x100 + y.toNat * 0x10 + n → decode w = .ok (mk x y)

/-- Every word of class c with low byte kk decodes to mk of its nibble X. -/
def EncodesX (c kk : Nat) (mk : Nibble → Instr) : Prop :=
  ∀ (w : Word) (x : Nibble), w.toNat = c * 0x1000 + x.toNat * 0x100 + kk → decode w = .ok (mk x)

/-- The state after one instruction that goes on at pc + 4 where cond holds and at pc + 2 where it does not. -/
def Skips (i : Instr) (cond : Prop) (s : State) : Prop :=
  ∃ t, exec i s = .next t ∧ (cond → t.pc = s.pc + 4#16) ∧ (¬cond → t.pc = s.pc + 2#16) ∧ OnlyPc s t

/-- A sprite of n rows drawn at column x and row y has a 1 bit on the pixel in row r and column c
(46_display.md R272, R274): most significant bit leftmost, rows downwards, wrapping at 64 and 32. -/
def Covers (s : State) (x y : Byte) (n : Nat) (r : Fin 32) (c : Fin 64) : Prop :=
  ∃ row col : Nat, row < n ∧ col < 8 ∧ (y.toNat + row) % 32 = r ∧ (x.toNat + col) % 64 = c ∧
    (readByte s.mem (s.i.toNat + row)).getLsbD (7 - col) = true

/-- The core takes a step on a turn of the scheduler (40_step.md R121), with a CLOCK_HZ the host may set
(60_exceptions.md R326). -/
def Runs (s : State) : Prop := s.halted = false ∧ s.runMode = .running ∧ 1 ≤ s.clockHz

/-- The fault an instruction raises, from the table of 60_exceptions.md R302: cause and info. -/
def faultOf (i : Instr) (s : State) : Option (Cause × Nat) :=
  match i with
  | .ret => if s.sp.val = 0 then some (.stackUnderflow, 0) else none
  | .call _ => if s.sp.val = 16 then some (.stackOverflow, 16) else none
  | .skp x | .sknp x => if (s.getV x).toNat > 0xF then some (.keyIndex, (s.getV x).toNat) else none
  | .addI x =>
    if s.i.toNat + (s.getV x).toNat > 0xFFF then some (.indexOob, s.i.toNat + (s.getV x).toNat) else none
  | .ldF x => if (s.getV x).toNat > 0xF then some (.fontIndex, (s.getV x).toNat) else none
  | .ldB _ => if s.i.toNat + 2 > 0xFFF then some (.memOob, 0x1000) else none
  | .ldMemV x | .ldVMem x => if s.i.toNat + x.toNat > 0xFFF then some (.memOob, 0x1000) else none
  | .drw _ _ n => if s.i.toNat + n.toNat > 0x1000 then some (.memOob, 0x1000) else none
  | _ => none

/-- The fault a step raises: FETCH_OOB first, then the fault of the decoded instruction; an unknown word raises none
(60_exceptions.md R302 to R304). -/
def stepFaultOf (s : State) : Option (Cause × Nat) :=
  if s.pc.toNat > 0xFFE then some (.fetchOob, s.pc.toNat)
  else
    match decode (fetch16 s) with
    | .ok i => faultOf i s
    | .error _ => none

/-- The registers an instruction may write, from the table of 10_state.md R21. -/
def mayWriteReg (i : Instr) (y : Nibble) : Prop :=
  match i with
  | .ldImm x _ | .addImm x _ | .ldReg x _ | .orReg x _ | .andReg x _ | .xorReg x _ | .rnd x _ | .ldVDt x
  | .ldVK x => y = x
  | .addReg x _ | .sub x _ | .shr x _ | .subn x _ | .shl x _ => y = x ∨ y = 0xF#4
  | .drw _ _ _ => y = 0xF#4
  | .ldVMem x => y.toNat ≤ x.toNat
  | _ => False

/-- p is the pc after a skip from s: pc + 4 where cond holds, pc + 2 where it does not (42_skips.md R160). -/
def SkipPc (cond : Prop) (s : State) (p : Word) : Prop :=
  (cond → p = s.pc + 4#16) ∧ (¬cond → p = s.pc + 2#16)

/-- No key is pressed. -/
def NoKey (s : State) : Prop := ∀ k : Fin 16, s.key[k] = false

/-- p is the pc after an instruction that starts in s and does not fault (10_state.md R25): the jumps, the call and the
return assign it directly, a skip adds 4 where its condition holds, FX0A keeps it while no key is pressed, and everything
else adds 2. -/
def PcAfter (i : Instr) (s : State) (p : Word) : Prop :=
  match i with
  | .jp nnn | .call nnn => p.toNat = nnn.toNat
  | .jpV0 nnn => p.toNat = nnn.toNat + (s.getV 0#4).toNat
  | .ret => ∃ k : Fin 16, s.sp.val = k.val + 1 ∧ p = s.stack[k]
  | .seImm x kk => SkipPc (s.getV x = kk) s p
  | .sneImm x kk => SkipPc (s.getV x ≠ kk) s p
  | .seReg x y => SkipPc (s.getV x = s.getV y) s p
  | .sneReg x y => SkipPc (s.getV x ≠ s.getV y) s p
  | .skp x => ∃ k : Fin 16, (s.getV x).toNat = k.val ∧ SkipPc (s.key[k] = true) s p
  | .sknp x => ∃ k : Fin 16, (s.getV x).toNat = k.val ∧ SkipPc (s.key[k] = false) s p
  | .ldVK _ => (NoKey s → p = s.pc) ∧ (¬NoKey s → p = s.pc + 2#16)
  | _ => p = s.pc + 2#16

/-- The state after k timer accountings, each of a state with CLOCK_HZ at least 1. -/
def afterAccounts : Nat → State → Host.Outcome State Fault Refusal
  | 0, s => .next s
  | k + 1, s =>
    match timerAccount s with
    | .next t => afterAccounts k t
    | .fault r => .fault r
    | .refused r => .refused r

/-- The word of a class-5 or class-9 instruction with its ignored low nibble cleared; any other word unchanged. -/
def canonicalWord (w : Word) : Word :=
  if w.toNat / 0x1000 = 5 ∨ w.toNat / 0x1000 = 9 then w &&& 0xFFF0#16 else w

/-- The font set of 70_reset_and_hazards.md R352: the glyphs 0 to F, each its five rows from the top. -/
def glyphTable : List (List Nat) :=
  [[0xF0, 0x90, 0x90, 0x90, 0xF0], [0x20, 0x60, 0x20, 0x20, 0x70], [0xF0, 0x10, 0xF0, 0x80, 0xF0],
   [0xF0, 0x10, 0xF0, 0x10, 0xF0], [0x90, 0x90, 0xF0, 0x10, 0x10], [0xF0, 0x80, 0xF0, 0x10, 0xF0],
   [0xF0, 0x80, 0xF0, 0x90, 0xF0], [0xF0, 0x10, 0x20, 0x40, 0x40]] ++
  [[0xF0, 0x90, 0xF0, 0x90, 0xF0], [0xF0, 0x90, 0xF0, 0x10, 0xF0], [0xF0, 0x90, 0xF0, 0x90, 0x90],
   [0xE0, 0x90, 0xE0, 0x90, 0xE0], [0xF0, 0x80, 0x80, 0x80, 0xF0], [0xE0, 0x90, 0x90, 0x90, 0xE0],
   [0xF0, 0x80, 0xF0, 0x80, 0xF0], [0xF0, 0x80, 0xF0, 0x80, 0x80]]

/-- The state with the list of emitted events replaced. -/
def withEvents (s : State) (es : List Event) : State := { s with events := es }

end Sys2Proof.Claims

open Sys2Proof Sys2Proof.Machine Sys2Proof.Claims

/-! ## Encoding (30_encoding.md) -/

/-- R94 to R98, R102: the decoder reads every well-formed instruction's word as that instruction, with every operand at
every value.
Derived: it rests on the opcode map, part of it what the spec marks as general knowledge; D18, D19 (log entry 15). -/
def Obligations.DecodeOfEncodeIsIdentity : Prop :=
  ∀ i : Instr, i.wellFormed = true → decode (encode i) = .ok i

/-- R95, R99, R102: whatever word decodes to an instruction, the instruction is well-formed and its word is that word,
but for the low nibble that classes 5 and 9 ignore.
Derived: it rests on D18, D19 and log entry 14. -/
def Obligations.EncodeOfDecodeIsCanonicalWord : Prop :=
  ∀ (w : Word) (i : Instr), decode w = .ok i → i.wellFormed = true ∧ encode i = canonicalWord w

/-- R100: the unknown opcodes are exactly the words 8XYn with n in 8 to D or F, EXkk with kk neither 9E nor A1, and FXkk
with kk none of the nine sub-opcodes.
Derived: it rests on the spec's derivation of R100 (log entry 15). -/
def Obligations.UnknownOpcodesAreExactlyThese : Prop :=
  ∀ w : Word, (∃ u, decode w = .error u) ↔
    (w.toNat / 0x1000 = 0x8 ∧ w.toNat % 16 ∈ [0x8, 0x9, 0xA, 0xB, 0xC, 0xD, 0xF]) ∨
    (w.toNat / 0x1000 = 0xE ∧ w.toNat % 256 ∉ [0x9E, 0xA1]) ∨
    (w.toNat / 0x1000 = 0xF ∧ w.toNat % 256 ∉ [0x07, 0x0A, 0x15, 0x18, 0x1E, 0x29, 0x33, 0x55, 0x65])

/-- Words of 95_test_vectors.md, one or more of each family, decode to the instruction they stand for.
Derived: it rests on the spec's test vectors (log entry 15). -/
def Obligations.SpecExampleWordsDecode : Prop :=
  decode 0x00E0#16 = .ok .cls ∧ decode 0x00EE#16 = .ok .ret ∧ decode 0x01E0#16 = .ok (.sys 0x1E0#12) ∧
  decode 0x2210#16 = .ok (.call 0x210#12) ∧ decode 0x3342#16 = .ok (.seImm 3#4 0x42#8) ∧
  decode 0x5121#16 = .ok (.seReg 1#4 2#4) ∧ decode 0x8127#16 = .ok (.subn 1#4 2#4) ∧
  decode 0xA300#16 = .ok (.ldI 0x300#12) ∧ decode 0xC30F#16 = .ok (.rnd 3#4 0x0F#8) ∧
  decode 0xD125#16 = .ok (.drw 1#4 2#4 5#4) ∧ decode 0xE5A1#16 = .ok (.sknp 5#4) ∧
  decode 0xF40A#16 = .ok (.ldVK 4#4) ∧ decode 0xF265#16 = .ok (.ldVMem 2#4)

/-! ## Fetch and the step (20_memory.md, 40_step.md) -/

/-- R61: the byte at pc is op[15:8], the byte at pc + 1 is op[7:0]. -/
def Obligations.FetchIsBigEndian : Prop :=
  ∀ s : State, (fetch16 s).toNat =
    (readByte s.mem s.pc.toNat).toNat * 256 + (readByte s.mem (s.pc.toNat + 1)).toNat

/-- R120, R121, R123, R125, R127, R128: a running core whose fetched word decodes to an instruction runs exactly that
instruction, with the opcode register written before it, and then accounts the timers unless the instruction faulted.
Derived: it rests on D2, D22, D25 (log entry 15). -/
def Obligations.StepRunsTheDecodedInstruction : Prop :=
  ∀ (s : State) (i : Instr), s.halted = false → s.runMode = .running → s.pc.toNat ≤ 0xFFE →
    decode (fetch16 s) = .ok i →
    step s =
      match exec i { s with opcode := fetch16 s } with
      | .next t => if t.halted then .next t else timerAccount t
      | .fault r => .fault r
      | .refused r => .refused r

/-- R126: an unknown opcode emits UNKNOWN_OPCODE(pc, op) and sets pc to pc + 2; nothing else changes but the opcode
register; and the timers are accounted (R127).
Derived: it rests on D20 and D22; the list of events is log entry 2. -/
def Obligations.UnknownOpcodeIsReportedNoOp : Prop :=
  ∀ (s : State) (u : Unknown), s.halted = false → s.runMode = .running → s.pc.toNat ≤ 0xFFE →
    decode (fetch16 s) = .error u →
    step s = timerAccount { s with
      opcode := fetch16 s
      events := s.events ++ [.unknownOpcode s.pc (fetch16 s)]
      pc := s.pc + 2#16 }

/-- R64: a fetch at pc above 0xFFE raises FETCH_OOB with info = pc, and the opcode register is not written.
Derived: it rests on D2, D3; log entries 1 and 2. -/
def Obligations.FetchOutOfBoundsFaults : Prop :=
  ∀ s : State, s.halted = false → s.runMode = .running → s.pc.toNat > 0xFFE →
    ∃ t, step s = .next t ∧ TakesFault .fetchOob s.pc.toNat s t

/-- R305, R325, R327: a halted core takes no step, neither on a turn of the scheduler, where the model answers the fault
of log entry 1, nor on SINGLE_STEP; a paused core waits unchanged.
Derived: it rests on D25, D41; log entries 1 and 7. -/
def Obligations.HaltedOrPausedCoreTakesNoStep : Prop :=
  ∀ s : State,
    (s.halted = true → step s = .fault (.halted s.fault.cause s.fault.pc s.fault.info) ∧
      hostOp .singleStep s = .next s) ∧
    (s.halted = false → s.runMode = .paused → step s = .next s)

/-- R301, R128: a fault is precise. After a step that faults the state is exactly the state before it, but for the fault
state, the event, and the opcode register where the fault came after the fetch.
Derived: it rests on D2, D26; log entries 1 and 2. -/
def Obligations.FaultsArePrecise : Prop :=
  ∀ s t : State, Runs s → step s = .next t → t.halted = true →
    ∃ cause info, cause ≠ Cause.none ∧
      TakesFault cause info (if s.pc.toNat ≤ 0xFFE then { s with opcode := fetch16 s } else s) t

/-- R302, R304: a step raises a fault exactly under the conditions of the table, with the cause and info of the table;
and the causes have the table's codes.
Derived: it rests on D2, D3, D5, D6, D8, D15, D16; log entry 1. -/
def Obligations.StepFaultsExactlyAsTheTableSays : Prop :=
  (∀ s : State, Runs s → ∃ t, step s = .next t ∧
    match stepFaultOf s with
    | some (cause, info) => t.halted = true ∧ t.fault = ⟨cause, s.pc, info⟩
    | none => t.halted = false ∧ t.fault = s.fault) ∧
  [Cause.none, .fetchOob, .memOob, .stackOverflow, .stackUnderflow, .indexOob, .fontIndex, .keyIndex].map causeCode =
    [0, 1, 2, 3, 4, 5, 6, 7]

/-- R130, R102: execute has no refusal; every instruction answers a next state in every state.
Derived: it rests on D2, D43; log entry 1. -/
def Obligations.ExecNeverRefuses : Prop :=
  ∀ (i : Instr) (s : State), ∃ t, exec i s = .next t

/-! ## The invariant -/

/-- R350, R356: the state at power-up meets the invariant.
Derived: it rests on the reset values of R350 and R356 (log entry 15). -/
def Obligations.ResetMeetsTheInvariant : Prop := Inv State.reset

/-- R24, R26, R60, R300, R326: a step keeps the invariant: memory in canonical form, pc at most 0x10FE, stack entries at
most 0x1000, a consistent fault state, CLOCK_HZ at least 1.
Derived: it rests on D2, D3, D7, D37; the canonical form is log entry 11. -/
def Obligations.StepKeepsTheInvariant : Prop :=
  ∀ s t : State, Inv s → step s = .next t → Inv t

/-- R44 to R46, R326, R350, R353: every host operation keeps the invariant.
Derived: it rests on D24, D33; log entry 8. -/
def Obligations.HostOperationsKeepTheInvariant : Prop :=
  ∀ (op : HostOp) (s t : State), Inv s → hostOp op s = .next t → Inv t

/-- Every state that turns of the scheduler and host operations reach from power-up meets the invariant.
Derived: it rests on log entry 8. -/
def Obligations.ReachableStatesMeetTheInvariant : Prop :=
  ∀ s : State, Reachable s → Inv s

/-! ## Timers (60_exceptions.md) -/

/-- R323, R324: one tick counts both timers down by 1, floored at 0, and emits TONE(1000, 50) exactly where ST goes
from 1 to 0.
Derived: it rests on D23; the list of events is log entry 2. -/
def Obligations.TickCountsBothTimersDown : Prop :=
  ∀ s : State,
    (tick s).dt.toNat = s.dt.toNat - 1 ∧ (tick s).st.toNat = s.st.toNat - 1 ∧
    (tick s).events = s.events ++ (if s.st.toNat = 1 then [.tone 1000 50] else []) ∧
    tick s = { s with dt := (tick s).dt, st := (tick s).st, events := (tick s).events }

/-- R322 to R324, R35: the accounting of one step in closed form. With F = CLOCK_HZ and n = (acc + 60) / F ticks: acc
becomes (acc + 60) mod F, which is below F, both timers fall by n, floored at 0, and one TONE is emitted exactly
where ST reaches 0 within the n ticks. Nothing else changes.
Derived: it rests on D22, D23, D24; log entries 2, 5 and 6. -/
def Obligations.TimerAccountingInClosedForm : Prop :=
  ∀ s : State, 1 ≤ s.clockHz → ∃ t, timerAccount s = .next t ∧
    t.acc = (s.acc + 60) % s.clockHz ∧ t.acc < t.clockHz ∧
    t.dt.toNat = s.dt.toNat - (s.acc + 60) / s.clockHz ∧
    t.st.toNat = s.st.toNat - (s.acc + 60) / s.clockHz ∧
    t.events = s.events ++
      (if 1 ≤ s.st.toNat ∧ s.st.toNat ≤ (s.acc + 60) / s.clockHz then [.tone 1000 50] else []) ∧
    t = { s with acc := t.acc, dt := t.dt, st := t.st, events := t.events }

/-- R322 to R324: over k timer accountings in a row the remainder carries. With F = CLOCK_HZ and n = (acc + 60 k) / F ticks
in all, acc becomes (acc + 60 k) mod F, both timers fall by n, floored at 0, and one TONE is emitted exactly where ST reaches
0 within the n ticks. Nothing else changes. It speaks of the accounting alone, not of the instructions of k steps.
Derived: it rests on D22, D23, D24; log entries 2 and 5. -/
def Obligations.TimerAccountingsCarryTheRemainder : Prop :=
  ∀ (k : Nat) (s : State), 1 ≤ s.clockHz → s.acc < s.clockHz → ∃ t, afterAccounts k s = .next t ∧
    t.acc = (s.acc + 60 * k) % s.clockHz ∧
    t.dt.toNat = s.dt.toNat - (s.acc + 60 * k) / s.clockHz ∧
    t.st.toNat = s.st.toNat - (s.acc + 60 * k) / s.clockHz ∧
    t.events = s.events ++
      (if 1 ≤ s.st.toNat ∧ s.st.toNat ≤ (s.acc + 60 * k) / s.clockHz then [.tone 1000 50] else []) ∧
    t = { s with acc := t.acc, dt := t.dt, st := t.st, events := t.events }

/-! ## Whole-machine rules (10_state.md, 20_memory.md) -/

/-- R21, R22: an instruction changes no general register but those of R21's table; in particular VF changes only by the
flag writers, DXYN, an instruction that names VF as its destination, or FX65.
Derived: it rests on the spec's table of R21, which it derives (log entry 15). -/
def Obligations.RegistersChangeOnlyAsTheTableSays : Prop :=
  ∀ (i : Instr) (s t : State) (y : Nibble), exec i s = .next t → t.getV y ≠ s.getV y → mayWriteReg i y

/-- R31, R33: only CLS and DRW change the display plane or the draw flag, and they leave the flag set unless they fault.
Derived: it rests on D21 (log entry 15). -/
def Obligations.OnlyDisplayInstructionsChangeThePlane : Prop :=
  ∀ (i : Instr) (s t : State), exec i s = .next t → t.disp ≠ s.disp ∨ t.drawFlag ≠ s.drawFlag →
    (i = .cls ∨ ∃ x y n, i = .drw x y n) ∧ t.drawFlag = true

/-- R67, R60: only FX33 and FX55 change memory, and only within I to I + 2 and I to I + X.
Derived: it rests on the spec's table of R67, which it derives; D5 (log entry 15). -/
def Obligations.OnlyStoresChangeMemory : Prop :=
  ∀ (i : Instr) (s t : State) (a : Nat), exec i s = .next t → readByte t.mem a ≠ readByte s.mem a →
    (∃ x, i = .ldB x ∧ s.i.toNat ≤ a ∧ a ≤ s.i.toNat + 2 ∧ a ≤ 0xFFF) ∨
    (∃ x, i = .ldMemV x ∧ s.i.toNat ≤ a ∧ a ≤ s.i.toNat + x.toNat ∧ a ≤ 0xFFF)

/-- R23, R26, R27, R28, R29: only ANNN, FX1E and FX29 change I; only CALL changes the stack; only CALL and RET change
SP; only FX15 changes DT and only FX18 changes ST while an instruction executes.
Derived: it rests on D6, D7, D8, D14 and what the spec marks as general knowledge (log entry 15). -/
def Obligations.SpecialRegistersHaveTheirOwnWriters : Prop :=
  ∀ (i : Instr) (s t : State), exec i s = .next t →
    (t.i ≠ s.i → (∃ n, i = .ldI n) ∨ (∃ x, i = .addI x) ∨ ∃ x, i = .ldF x) ∧
    (t.stack ≠ s.stack → ∃ n, i = .call n) ∧
    (t.sp ≠ s.sp → (∃ n, i = .call n) ∨ i = .ret) ∧
    (t.dt ≠ s.dt → ∃ x, i = .ldDtV x) ∧
    (t.st ≠ s.st → ∃ x, i = .ldStV x)

/-- R30, R36, R39, R326: no turn of the scheduler changes a key, the run mode or CLOCK_HZ; and execute changes neither
acc nor the opcode register (R32, R35).
Derived: it rests on D22, D24, D25; log entry 5. -/
def Obligations.NoStepChangesWhatTheHostOwns : Prop :=
  (∀ s t : State, step s = .next t → t.key = s.key ∧ t.runMode = s.runMode ∧ t.clockHz = s.clockHz) ∧
  (∀ (i : Instr) (s t : State), exec i s = .next t → t.acc = s.acc ∧ t.opcode = s.opcode)

/-- R25: every operation that does not fault sets pc itself: to pc + 4 for a skip whose condition holds, directly for jumps,
calls and returns, and else to pc + 2; FX0A with no key pressed changes nothing at all, pc included. The rest of the step
does not move pc: it ends where execute left it.
Derived: it rests on R25, which is the source's, and for the conditions of the skips and the targets of the jumps on D7, D9,
D16, D18 and what the spec marks as general knowledge (log entry 15). -/
def Obligations.EveryOperationAdvancesPcItself : Prop :=
  (∀ (i : Instr) (s t : State), s.halted = false → exec i s = .next t → t.halted = false →
    PcAfter i s t.pc ∧ ∀ x, i = .ldVK x → NoKey s → t = s) ∧
  (∀ (i : Instr) (s t u : State), s.halted = false → s.runMode = .running → s.pc.toNat ≤ 0xFFE →
    decode (fetch16 s) = .ok i → exec i { s with opcode := fetch16 s } = .next u → step s = .next t → t.pc = u.pc)

/-- R14, R45: events are output, not state. What a step does does not depend on the events emitted before (the list of
log entry 2), and a step only adds events at the end.
Derived: it rests on D23, D33; log entry 2. -/
def Obligations.EmittedEventsNeverInfluenceAStep : Prop :=
  ∀ s t : State, step s = .next t → ∃ new : List Event,
    t.events = s.events ++ new ∧
    ∀ es : List Event, step (withEvents s es) = .next (withEvents t (es ++ new))

/-! ## Control transfer (41_control_flow.md) -/

/-- R140: SYS NNN, every other word of class 0, only advances pc; it emits nothing.
Derived: it rests on D40, D19 and what the spec marks as general knowledge (log entry 15). -/
def Obligations.SysIsANoOp : Prop :=
  (∀ (w : Word) (nnn : Addr), w.toNat = nnn.toNat → w ≠ 0x00E0#16 → w ≠ 0x00EE#16 → decode w = .ok (.sys nnn)) ∧
  ∀ (nnn : Addr) (s : State), ∃ t, exec (.sys nnn) s = .next t ∧ t.pc = s.pc + 2#16 ∧ OnlyPc s t

/-- R142, R144: JP NNN goes to NNN; JP V0, NNN goes to NNN + V0, exactly.
Derived: it rests on D9 and what the spec marks as general knowledge (log entry 15). -/
def Obligations.JumpsGoToTheirTarget : Prop :=
  EncodesNNN 0x1 .jp ∧ EncodesNNN 0xB .jpV0 ∧
  (∀ (nnn : Addr) (s : State), ∃ t, exec (.jp nnn) s = .next t ∧ t.pc.toNat = nnn.toNat ∧ OnlyPc s t) ∧
  (∀ (nnn : Addr) (s : State), ∃ t, exec (.jpV0 nnn) s = .next t ∧
    t.pc.toNat = nnn.toNat + (s.getV 0#4).toNat ∧ OnlyPc s t)

/-- R143: CALL NNN pushes pc + 2 and goes to NNN; with 16 entries on the stack it faults STACK_OVERFLOW.
Derived: it rests on D6, D7; log entries 1 and 2. -/
def Obligations.CallPushesTheReturnAddress : Prop :=
  EncodesNNN 0x2 .call ∧
  ∀ (nnn : Addr) (s : State),
    (s.sp.val ≤ 15 → ∃ t, exec (.call nnn) s = .next t ∧
      t.sp.val = s.sp.val + 1 ∧ t.pc.toNat = nnn.toNat ∧
      (∀ k : Fin 16, t.stack[k] = if k.val = s.sp.val then s.pc + 2#16 else s.stack[k]) ∧
      t = { s with stack := t.stack, sp := t.sp, pc := t.pc } ∧ SameBytes s t) ∧
    (s.sp.val = 16 → ∃ t, exec (.call nnn) s = .next t ∧ TakesFault .stackOverflow 16 s t)

/-- R141: RET pops the return address, which stays in its entry; with an empty stack it faults STACK_UNDERFLOW.
Derived: it rests on D6, D7; log entries 1 and 2. -/
def Obligations.RetPopsTheReturnAddress : Prop :=
  (∀ w : Word, w.toNat = 0x00EE → decode w = .ok .ret) ∧
  ∀ s : State,
    (∀ k : Fin 16, s.sp.val = k.val + 1 → ∃ t, exec .ret s = .next t ∧
      t.sp.val = k.val ∧ t.pc = s.stack[k] ∧ t = { s with sp := t.sp, pc := t.pc } ∧ SameBytes s t) ∧
    (s.sp.val = 0 → ∃ t, exec .ret s = .next t ∧ TakesFault .stackUnderflow 0 s t)

/-- R141, R143, R146: a RET right after a CALL returns to the instruction after the CALL, with the stack pointer as
before and everything but pc and the stack's popped entry as before.
Derived: it rests on D6, D7 and the spec's derivation of R146 (log entry 15). -/
def Obligations.RetUndoesCall : Prop :=
  ∀ (nnn : Addr) (s : State), s.sp.val ≤ 15 → ∃ t u, exec (.call nnn) s = .next t ∧ exec .ret t = .next u ∧
    u.pc = s.pc + 2#16 ∧ u = { s with stack := u.stack, pc := u.pc } ∧
    (∀ k : Fin 16, u.stack[k] = if k.val = s.sp.val then s.pc + 2#16 else s.stack[k]) ∧ SameBytes s u

/-! ## Skips (42_skips.md) -/

/-- R161, R162: SE VX, KK and SNE VX, KK.
Derived: it rests on R161 is the source's; SNE is what the spec marks as general knowledge (log entry 15). -/
def Obligations.ImmediateSkips : Prop :=
  EncodesXKK 0x3 .seImm ∧ EncodesXKK 0x4 .sneImm ∧
  ∀ (x : Nibble) (kk : Byte) (s : State),
    Skips (.seImm x kk) (s.getV x = kk) s ∧ Skips (.sneImm x kk) (s.getV x ≠ kk) s

/-- R163, R164, R99: SE VX, VY and SNE VX, VY, whatever the low nibble of the word.
Derived: it rests on D18 and what the spec marks as general knowledge (log entry 15). -/
def Obligations.RegisterSkips : Prop :=
  (∀ n : Nat, n < 16 → EncodesXY 0x5 n .seReg ∧ EncodesXY 0x9 n .sneReg) ∧
  ∀ (x y : Nibble) (s : State),
    Skips (.seReg x y) (s.getV x = s.getV y) s ∧ Skips (.sneReg x y) (s.getV x ≠ s.getV y) s

/-- R165, R166: SKP and SKNP skip on the state of key V[X]; a V[X] above 0xF faults KEY_INDEX.
Derived: it rests on D16 and what the spec marks as general knowledge; log entries 1 and 2. -/
def Obligations.KeySkips : Prop :=
  EncodesX 0xE 0x9E .skp ∧ EncodesX 0xE 0xA1 .sknp ∧
  ∀ (x : Nibble) (s : State),
    (∀ k : Fin 16, (s.getV x).toNat = k.val →
      Skips (.skp x) (s.key[k] = true) s ∧ Skips (.sknp x) (s.key[k] = false) s) ∧
    ((s.getV x).toNat > 0xF →
      (∃ t, exec (.skp x) s = .next t ∧ TakesFault .keyIndex (s.getV x).toNat s t) ∧
      (∃ t, exec (.sknp x) s = .next t ∧ TakesFault .keyIndex (s.getV x).toNat s t))

/-! ## Register loads, arithmetic and logic (43_alu.md) -/

/-- R182, R184: LD VX, KK and LD VX, VY.
Derived: it rests on what the spec marks as general knowledge (log entry 15). -/
def Obligations.RegisterLoads : Prop :=
  EncodesXKK 0x6 .ldImm ∧ EncodesXY 0x8 0x0 .ldReg ∧
  (∀ (x : Nibble) (kk : Byte) (s : State), ∃ t, exec (.ldImm x kk) s = .next t ∧
    t.getV x = kk ∧ OtherRegsSame x s t ∧ t.pc = s.pc + 2#16 ∧ OnlyRegsAndPc s t) ∧
  (∀ (x y : Nibble) (s : State), ∃ t, exec (.ldReg x y) s = .next t ∧
    t.getV x = s.getV y ∧ OtherRegsSame x s t ∧ t.pc = s.pc + 2#16 ∧ OnlyRegsAndPc s t)

/-- R183: ADD VX, KK adds modulo 256 and writes no flag. -/
def Obligations.AddImmediateWrapsWithoutFlag : Prop :=
  EncodesXKK 0x7 .addImm ∧
  ∀ (x : Nibble) (kk : Byte) (s : State), ∃ t, exec (.addImm x kk) s = .next t ∧
    (t.getV x).toNat = ((s.getV x).toNat + kk.toNat) % 256 ∧
    OtherRegsSame x s t ∧ t.pc = s.pc + 2#16 ∧ OnlyRegsAndPc s t

/-- R185, R186, R187: OR, AND and XOR, bit by bit, with no flag.
Derived: it rests on D13 and what the spec marks as general knowledge (log entry 15). -/
def Obligations.LogicIsBitwiseWithoutFlag : Prop :=
  EncodesXY 0x8 0x1 .orReg ∧ EncodesXY 0x8 0x2 .andReg ∧ EncodesXY 0x8 0x3 .xorReg ∧
  ∀ (x y : Nibble) (s : State),
    (∃ t, exec (.orReg x y) s = .next t ∧
      (∀ k < 8, (t.getV x).getLsbD k = ((s.getV x).getLsbD k || (s.getV y).getLsbD k)) ∧
      OtherRegsSame x s t ∧ t.pc = s.pc + 2#16 ∧ OnlyRegsAndPc s t) ∧
    (∃ t, exec (.andReg x y) s = .next t ∧
      (∀ k < 8, (t.getV x).getLsbD k = ((s.getV x).getLsbD k && (s.getV y).getLsbD k)) ∧
      OtherRegsSame x s t ∧ t.pc = s.pc + 2#16 ∧ OnlyRegsAndPc s t) ∧
    (∃ t, exec (.xorReg x y) s = .next t ∧
      (∀ k < 8, (t.getV x).getLsbD k = ((s.getV x).getLsbD k ^^ (s.getV y).getLsbD k)) ∧
      OtherRegsSame x s t ∧ t.pc = s.pc + 2#16 ∧ OnlyRegsAndPc s t)

/-- R181: WriteRF under either order is the two writes in that order, the last one winning where X = F.
Derived: it rests on D11, the open parameter FLAG_ORDER; log entry 4. -/
def Obligations.FlagOrderDecidesOnlyWhenXIsF : Prop :=
  ∀ (x y : Nibble) (r f : Byte) (v : Regs),
    (writeRFRegs .flagLast x r f v)[y.toNat]'(y.isLt) =
      (if y = 0xF#4 then f else if y = x then r else v[y.toNat]'(y.isLt)) ∧
    (writeRFRegs .resultLast x r f v)[y.toNat]'(y.isLt) =
      (if y = x then r else if y = 0xF#4 then f else v[y.toNat]'(y.isLt)) ∧
    (x ≠ 0xF#4 → writeRFRegs .flagLast x r f v = writeRFRegs .resultLast x r f v)

/-- R188, R181: ADD VX, VY adds modulo 256; VF is 1 on a carry-out, else 0. Where X = F, VF is that flag under FLAG_LAST
and the sum under RESULT_LAST.
Derived: it rests on R188, which is the source's, and where X = F on D11, the open parameter FLAG_ORDER; log entry 4. -/
def Obligations.AddRegisterSetsCarry : Prop :=
  EncodesXY 0x8 0x4 .addReg ∧
  ∀ (x y : Nibble) (s : State), ∃ t, exec (.addReg x y) s = .next t ∧
    RegsAfterRF x (BitVec.ofNat 8 (((s.getV x).toNat + (s.getV y).toNat) % 256))
      (if (s.getV x).toNat + (s.getV y).toNat > 255 then 1#8 else 0#8) s t ∧
    t.pc = s.pc + 2#16 ∧ OnlyRegsAndPc s t

/-- R189, R191: SUB is VX - VY and SUBN is VY - VX, modulo 256 in the integers; VF is 0 where the minuend is the
smaller, else 1.
Derived: it rests on for SUBN D12 and what the spec marks as general knowledge; FLAG_ORDER is log entry 4. -/
def Obligations.SubtractionsSetNotBorrow : Prop :=
  EncodesXY 0x8 0x5 .sub ∧ EncodesXY 0x8 0x7 .subn ∧
  ∀ (x y : Nibble) (s : State),
    (∃ t, exec (.sub x y) s = .next t ∧
      RegsAfterRF x (BitVec.ofInt 8 (((s.getV x).toNat - (s.getV y).toNat : Int) % 256))
        (if (s.getV x).toNat < (s.getV y).toNat then 0#8 else 1#8) s t ∧
      t.pc = s.pc + 2#16 ∧ OnlyRegsAndPc s t) ∧
    (∃ t, exec (.subn x y) s = .next t ∧
      RegsAfterRF x (BitVec.ofInt 8 (((s.getV y).toNat - (s.getV x).toNat : Int) % 256))
        (if (s.getV y).toNat < (s.getV x).toNat then 0#8 else 1#8) s t ∧
      t.pc = s.pc + 2#16 ∧ OnlyRegsAndPc s t)

/-- R190, R192: SHR halves VX and SHL doubles it modulo 256; VF is the bit shifted out; VY is not read.
Derived: it rests on D10; FLAG_ORDER is log entry 4. -/
def Obligations.ShiftsSetTheBitShiftedOut : Prop :=
  EncodesXY 0x8 0x6 .shr ∧ EncodesXY 0x8 0xE .shl ∧
  ∀ (x y : Nibble) (s : State),
    (∃ t, exec (.shr x y) s = .next t ∧
      RegsAfterRF x (BitVec.ofNat 8 ((s.getV x).toNat / 2)) (BitVec.ofNat 8 ((s.getV x).toNat % 2)) s t ∧
      t.pc = s.pc + 2#16 ∧ OnlyRegsAndPc s t) ∧
    (∃ t, exec (.shl x y) s = .next t ∧
      RegsAfterRF x (BitVec.ofNat 8 ((s.getV x).toNat * 2 % 256)) (BitVec.ofNat 8 ((s.getV x).toNat / 128)) s t ∧
      t.pc = s.pc + 2#16 ∧ OnlyRegsAndPc s t)

/-- R193, with the model's free value (log entry 3): RND writes the draw masked by KK, takes a fresh draw each time, and
writes no flag; no other instruction takes a draw (R129).
Derived: it rests on D30; the draw and its counter are log entry 3. -/
def Obligations.RandomIsAMaskedFreshDraw : Prop :=
  EncodesXKK 0xC .rnd ∧
  (∀ (x : Nibble) (kk : Byte) (s : State), ∃ t, exec (.rnd x kk) s = .next t ∧
    (∀ k < 8, (t.getV x).getLsbD k = ((Config.rnd s.draws).getLsbD k && kk.getLsbD k)) ∧
    OtherRegsSame x s t ∧ t.pc = s.pc + 2#16 ∧ t.draws = s.draws + 1 ∧
    t = { s with v := t.v, pc := t.pc, draws := t.draws } ∧ SameBytes s t) ∧
  (∀ (i : Instr) (s t : State), exec i s = .next t → t.draws ≠ s.draws → ∃ x kk, i = .rnd x kk)

/-! ## Index register and memory transfers (44_index_memory.md) -/

/-- R220, R222: LD I, NNN; and LD F, VX, the glyph's address 5 VX, which faults FONT_INDEX above digit 0xF.
Derived: it rests on D15 and what the spec marks as general knowledge; log entries 1 and 2. -/
def Obligations.IndexLoads : Prop :=
  EncodesNNN 0xA .ldI ∧ EncodesX 0xF 0x29 .ldF ∧
  (∀ (nnn : Addr) (s : State), ∃ t, exec (.ldI nnn) s = .next t ∧
    t.i = nnn ∧ t.pc = s.pc + 2#16 ∧ OnlyIndexAndPc s t) ∧
  (∀ (x : Nibble) (s : State),
    ((s.getV x).toNat ≤ 0xF → ∃ t, exec (.ldF x) s = .next t ∧
      t.i.toNat = 5 * (s.getV x).toNat ∧ t.pc = s.pc + 2#16 ∧ OnlyIndexAndPc s t) ∧
    ((s.getV x).toNat > 0xF → ∃ t, exec (.ldF x) s = .next t ∧ TakesFault .fontIndex (s.getV x).toNat s t))

/-- R221: ADD I, VX adds exactly; a sum above 0xFFF faults INDEX_OOB with the sum recorded.
Derived: it rests on D8 and what the spec marks as general knowledge; log entries 1 and 2. -/
def Obligations.AddIndexIsExactOrFaults : Prop :=
  EncodesX 0xF 0x1E .addI ∧
  ∀ (x : Nibble) (s : State),
    (s.i.toNat + (s.getV x).toNat ≤ 0xFFF → ∃ t, exec (.addI x) s = .next t ∧
      t.i.toNat = s.i.toNat + (s.getV x).toNat ∧ t.pc = s.pc + 2#16 ∧ OnlyIndexAndPc s t) ∧
    (s.i.toNat + (s.getV x).toNat > 0xFFF → ∃ t, exec (.addI x) s = .next t ∧
      TakesFault .indexOob (s.i.toNat + (s.getV x).toNat) s t)

/-- R223: LD B, VX stores the three decimal digits at I, I + 1, I + 2, the hundreds lowest; it faults MEM_OOB when I is
above 0xFFD, writing no byte.
Derived: it rests on D5; log entries 1 and 2. -/
def Obligations.BcdStoresThreeDigits : Prop :=
  EncodesX 0xF 0x33 .ldB ∧
  ∀ (x : Nibble) (s : State), Memory.wf s.mem = true →
    (s.i.toNat ≤ 0xFFD → ∃ t, exec (.ldB x) s = .next t ∧
      (readByte t.mem s.i.toNat).toNat = (s.getV x).toNat / 100 ∧
      (readByte t.mem (s.i.toNat + 1)).toNat = (s.getV x).toNat / 10 % 10 ∧
      (readByte t.mem (s.i.toNat + 2)).toNat = (s.getV x).toNat % 10 ∧
      t.pc = s.pc + 2#16 ∧ OnlyBytesAndPc s.i.toNat 3 s t) ∧
    (s.i.toNat > 0xFFD → ∃ t, exec (.ldB x) s = .next t ∧ TakesFault .memOob 0x1000 s t)

/-- R224: LD [I], VX stores V[k] at I + k for k up to X; I is unchanged; it faults MEM_OOB when I + X is above 0xFFF,
writing no byte.
Derived: it rests on D5, D14; log entries 1 and 2. -/
def Obligations.StoreRegistersAtI : Prop :=
  EncodesX 0xF 0x55 .ldMemV ∧
  ∀ (x : Nibble) (s : State), Memory.wf s.mem = true →
    (s.i.toNat + x.toNat ≤ 0xFFF → ∃ t, exec (.ldMemV x) s = .next t ∧
      (∀ k : Nibble, k.toNat ≤ x.toNat → readByte t.mem (s.i.toNat + k.toNat) = s.getV k) ∧
      t.pc = s.pc + 2#16 ∧ OnlyBytesAndPc s.i.toNat (x.toNat + 1) s t) ∧
    (s.i.toNat + x.toNat > 0xFFF → ∃ t, exec (.ldMemV x) s = .next t ∧ TakesFault .memOob 0x1000 s t)

/-- R225: LD VX, [I] loads V[k] from I + k for k up to X, and no other register; I is unchanged; it faults MEM_OOB
when I + X is above 0xFFF, writing no register.
Derived: it rests on D5, D14; log entries 1 and 2. -/
def Obligations.LoadRegistersFromI : Prop :=
  EncodesX 0xF 0x65 .ldVMem ∧
  ∀ (x : Nibble) (s : State),
    (s.i.toNat + x.toNat ≤ 0xFFF → ∃ t, exec (.ldVMem x) s = .next t ∧
      (∀ k : Nibble, t.getV k =
        if k.toNat ≤ x.toNat then readByte s.mem (s.i.toNat + k.toNat) else s.getV k) ∧
      t.pc = s.pc + 2#16 ∧ OnlyRegsAndPc s t) ∧
    (s.i.toNat + x.toNat > 0xFFF → ∃ t, exec (.ldVMem x) s = .next t ∧ TakesFault .memOob 0x1000 s t)

/-- R74, R63: a store is seen by the next fetch. When FX55 with X at least 1 stores at the address of the next
instruction, the next word fetched is V0 || V1.
Derived: it rests on D32 and the spec's derivations of R63 and R74 (log entry 15). -/
def Obligations.StoredCodeIsFetchedNext : Prop :=
  ∀ (x : Nibble) (s : State), Memory.wf s.mem = true → 1 ≤ x.toNat → s.pc.toNat ≤ 0xFFE →
    s.i.toNat = s.pc.toNat + 2 → s.i.toNat + x.toNat ≤ 0xFFF →
    ∃ t, exec (.ldMemV x) s = .next t ∧
      (fetch16 t).toNat = (s.getV 0#4).toNat * 256 + (s.getV 1#4).toNat

/-! ## Timer and keyboard instructions (45_timers_keys.md) -/

/-- R250, R252, R253: FX07 reads DT, FX15 writes DT, FX18 writes ST.
Derived: it rests on what the spec marks as general knowledge (log entry 15). -/
def Obligations.TimerMoves : Prop :=
  EncodesX 0xF 0x07 .ldVDt ∧ EncodesX 0xF 0x15 .ldDtV ∧ EncodesX 0xF 0x18 .ldStV ∧
  ∀ (x : Nibble) (s : State),
    (∃ t, exec (.ldVDt x) s = .next t ∧
      t.getV x = s.dt ∧ OtherRegsSame x s t ∧ t.pc = s.pc + 2#16 ∧ OnlyRegsAndPc s t) ∧
    (∃ t, exec (.ldDtV x) s = .next t ∧
      t.dt = s.getV x ∧ t.pc = s.pc + 2#16 ∧ t = { s with dt := t.dt, pc := t.pc } ∧ SameBytes s t) ∧
    (∃ t, exec (.ldStV x) s = .next t ∧
      t.st = s.getV x ∧ t.pc = s.pc + 2#16 ∧ t = { s with st := t.st, pc := t.pc } ∧ SameBytes s t)

/-- R251: FX0A with some key pressed writes the lowest pressed key to VX and advances; with no key pressed nothing is
written and pc stays. -/
def Obligations.KeyWaitTakesTheLowestKey : Prop :=
  EncodesX 0xF 0x0A .ldVK ∧
  ∀ (x : Nibble) (s : State),
    (∀ k : Fin 16, s.key[k] = true → (∀ j : Fin 16, j < k → s.key[j] = false) →
      ∃ t, exec (.ldVK x) s = .next t ∧
        (t.getV x).toNat = k.val ∧ OtherRegsSame x s t ∧ t.pc = s.pc + 2#16 ∧ OnlyRegsAndPc s t) ∧
    ((∀ k : Fin 16, s.key[k] = false) → exec (.ldVK x) s = .next s)

/-- R251, R127: a waiting step is a full step. Fetching FX0A with no key pressed leaves the core where it is, with the
opcode register rewritten and the timers accounted.
Derived: it rests on the spec's derivation in R251; D22; log entry 5. -/
def Obligations.KeyWaitIsAFullStep : Prop :=
  ∀ (s : State) (x : Nibble), Runs s → s.pc.toNat ≤ 0xFFE →
    (fetch16 s).toNat = 0xF00A + x.toNat * 0x100 → (∀ k : Fin 16, s.key[k] = false) →
    ∃ t, step s = .next t ∧ t.pc = s.pc ∧ t.v = s.v ∧ t.opcode = fetch16 s ∧
      t.acc = (s.acc + 60) % s.clockHz ∧
      t.dt.toNat = s.dt.toNat - (s.acc + 60) / s.clockHz ∧ t.st.toNat = s.st.toNat - (s.acc + 60) / s.clockHz

/-! ## Display (46_display.md) -/

/-- R270: CLS clears every pixel and sets drawFlag; VF is unchanged.
Derived: it rests on D19, D21 (log entry 15). -/
def Obligations.ClearScreen : Prop :=
  (∀ w : Word, w.toNat = 0x00E0 → decode w = .ok .cls) ∧
  ∀ s : State, ∃ t, exec .cls s = .next t ∧
    (∀ r c, pixelAt t.disp r c = false) ∧ t.drawFlag = true ∧ t.pc = s.pc + 2#16 ∧
    t = { s with disp := t.disp, drawFlag := t.drawFlag, pc := t.pc } ∧ SameBytes s t

/-- R271 to R274: DXYN toggles exactly the pixels its sprite's 1 bits cover, with wrap; VF is 1 exactly where some
covered pixel was set before, else 0; drawFlag is set; nothing else changes. N = 0 draws nothing and reads no
memory. A sprite that reaches above 0xFFF faults MEM_OOB and draws nothing.
Derived: it rests on D5, D17, what the spec marks as general knowledge; log entries 1 and 2. -/
def Obligations.DrawTogglesTheSpritesPixels : Prop :=
  (∀ (w : Word) (x y n : Nibble),
    w.toNat = 0xD000 + x.toNat * 0x100 + y.toNat * 0x10 + n.toNat → decode w = .ok (.drw x y n)) ∧
  ∀ (x y n : Nibble) (s : State),
    (n.toNat = 0 ∨ s.i.toNat + n.toNat ≤ 0x1000 → ∃ t, exec (.drw x y n) s = .next t ∧
      (∀ r c, pixelAt t.disp r c ≠ pixelAt s.disp r c ↔ Covers s (s.getV x) (s.getV y) n.toNat r c) ∧
      ((∃ r c, Covers s (s.getV x) (s.getV y) n.toNat r c ∧ pixelAt s.disp r c = true) → t.getV 0xF#4 = 1#8) ∧
      ((∀ r c, Covers s (s.getV x) (s.getV y) n.toNat r c → pixelAt s.disp r c = false) → t.getV 0xF#4 = 0#8) ∧
      OtherRegsSame 0xF#4 s t ∧ t.drawFlag = true ∧ t.pc = s.pc + 2#16 ∧
      t = { s with disp := t.disp, v := t.v, drawFlag := t.drawFlag, pc := t.pc } ∧ SameBytes s t) ∧
    (1 ≤ n.toNat → s.i.toNat + n.toNat > 0x1000 →
      ∃ t, exec (.drw x y n) s = .next t ∧ TakesFault .memOob 0x1000 s t)

/-- R271 to R273, the source's property: the same sprite drawn twice at the same place leaves the plane as it was; on
a blank plane a sprite with a 1 bit gives VF = 1 the second time.
Derived: it rests on S7 of 95_test_vectors.md, the source's property; X and Y other than F since VF is written (log
entry 15). -/
def Obligations.DrawingTwiceRestoresThePlane : Prop :=
  ∀ (x y n : Nibble) (s : State), x ≠ 0xF#4 → y ≠ 0xF#4 → s.i.toNat + n.toNat ≤ 0x1000 →
    ∃ t u, exec (.drw x y n) s = .next t ∧ exec (.drw x y n) t = .next u ∧ u.disp = s.disp ∧
      (s.disp = blankPlane → (∃ r c, Covers s (s.getV x) (s.getV y) n.toNat r c) →
        t.getV 0xF#4 = 0#8 ∧ u.getV 0xF#4 = 1#8)

/-! ## Reset, load and the host's operations (70_reset_and_hazards.md, 10_state.md R44) -/

/-- R350 to R352, R355, R356: RESET leaves every element at its reset value, the font below 0x050 (the model fixes
R352's bytes, log entry 9), and changes neither runMode nor CLOCK_HZ; a second RESET changes nothing; at power-up
the core is PAUSED with CLOCK_HZ = 1 760 000.
Derived: it rests on D2, D22, D24, D25, D28, D38 and what the spec marks as general knowledge; the font bytes are log
entry 9. -/
def Obligations.ResetValues : Prop :=
  (∀ s : State, ∃ t, hostOp .reset s = .next t ∧
    (∀ d r : Nat, d < 16 → r < 5 → (readByte t.mem (5 * d + r)).toNat = (glyphTable.getD d []).getD r 0) ∧
    (∀ a, 0x050 ≤ a → readByte t.mem a = 0#8) ∧
    (∀ x, t.getV x = 0#8) ∧ (∀ k : Fin 16, t.stack[k] = 0#16) ∧ (∀ k : Fin 16, t.key[k] = false) ∧
    t.i = 0#12 ∧ t.pc = 0x200#16 ∧ t.sp.val = 0 ∧ t.dt = 0#8 ∧ t.st = 0#8 ∧ t.opcode = 0#16 ∧
    (∀ r c, pixelAt t.disp r c = false) ∧ t.drawFlag = false ∧ t.acc = 0 ∧
    t.halted = false ∧ t.fault = ⟨.none, 0#16, 0⟩ ∧ t.runMode = s.runMode ∧ t.clockHz = s.clockHz ∧
    hostOp .reset t = .next t) ∧
  hostOp .reset State.reset = .next State.reset ∧
  State.reset.runMode = .paused ∧ State.reset.clockHz = 1760000

/-- R353, R354: LOAD initializes, then copies at most 3584 bytes to 0x200, leaving the rest of memory as initialize
leaves it; an oversized ROM is reported and leaves the state of initialize.
Derived: it rests on D29; log entry 8; that a ROM that fits gets no report, the reply done, is log entry 17. -/
def Obligations.LoadCopiesTheRom : Prop :=
  ∀ (bytes : List Byte) (s : State), ∃ t u, hostOp .reset s = .next u ∧ hostOp (.load bytes) s = .next t ∧
    (bytes.length > 3584 → t = u ∧ hostReply (.load bytes) s = .loadTooBig) ∧
    (bytes.length ≤ 3584 → hostReply (.load bytes) s = .done ∧ t = { u with mem := t.mem } ∧
      (∀ (k : Nat) (h : k < bytes.length), readByte t.mem (0x200 + k) = bytes[k]) ∧
      (∀ a, a < 0x200 ∨ 0x200 + bytes.length ≤ a → readByte t.mem a = readByte u.mem a))

/-- R325, R305: PAUSE and RESUME set the run mode and nothing else; SINGLE_STEP of a paused core that is not halted
performs what a turn of the scheduler performs while RUNNING, and leaves it PAUSED.
Derived: it rests on D25; log entries 8 and 13. -/
def Obligations.RunControl : Prop :=
  ∀ s : State, hostOp .pause s = .next { s with runMode := .paused } ∧
    hostOp .resume s = .next { s with runMode := .running } ∧
    (s.halted = false → s.runMode = .paused → ∀ t, step { s with runMode := .running } = .next t →
      hostOp .singleStep s = .next { t with runMode := .paused })

/-- R326, R330, R276, R275, R333: SET_CLOCK sets CLOCK_HZ and keeps acc, and refuses 0; KEY sets one key;
CLEAR_DRAW_FLAG clears the flag; RENDER returns the plane and READ_STATE the inspector's fields, changing nothing.
Derived: it rests on D24, D33; log entries 6 and 8. -/
def Obligations.HostInputsAndReads : Prop :=
  ∀ s : State,
    (∀ f, 1 ≤ f → hostOp (.setClock f) s = .next { s with clockHz := f }) ∧
    hostOp (.setClock 0) s = .refused .clockZero ∧
    (∀ (k : Nibble) (b : Bool), ∃ t, hostOp (.key k b) s = .next t ∧ t = { s with key := t.key } ∧
      ∀ j : Fin 16, t.key[j] = if j.val = k.toNat then b else s.key[j]) ∧
    hostOp .clearDrawFlag s = .next { s with drawFlag := false } ∧
    hostOp .render s = .next s ∧ hostReply .render s = .pixels s.disp ∧
    hostOp .readState s = .next s ∧
    hostReply .readState s = .view ⟨s.opcode, s.pc, s.i, s.dt, s.st, s.v, s.clockHz, s.halted, s.fault⟩

/-- R46: no host operation but LOAD, RESET and SINGLE_STEP writes V, I, pc, SP, the stack, DT, ST, memory or the display; and
SINGLE_STEP writes nothing but what a step of the core writes: it leaves the state, or the core is paused and not halted and
the state is what one cycle of it leaves.
Derived: it rests on R46, and for the exception of SINGLE_STEP on D25; log entries 8 and 13. -/
def Obligations.HostWritesNoProgramState : Prop :=
  (∀ (op : HostOp) (s t : State), (∀ bytes, op ≠ .load bytes) → op ≠ .reset → op ≠ .singleStep →
    hostOp op s = .next t →
    t.v = s.v ∧ t.i = s.i ∧ t.pc = s.pc ∧ t.sp = s.sp ∧ t.stack = s.stack ∧ t.dt = s.dt ∧ t.st = s.st ∧
      t.mem = s.mem ∧ t.disp = s.disp) ∧
  (∀ s t : State, hostOp .singleStep s = .next t →
    t = s ∨ (s.runMode = .paused ∧ s.halted = false ∧ cycle s = .next t))
end

