-- ==== Sys2Proof/Laws/State.lean ====
section
/-! SUPPORT. What each update of the state does to each field: one lemma per field and update, all true by rfl, so that
no later proof unfolds a record update. -/

namespace Sys2Proof.Machine

/-! ### State.setV -/

@[simp] theorem State.setV_v (s : State) (x : Nibble) (b : Byte) : (s.setV x b).v = setReg s.v x b := rfl
@[simp] theorem State.setV_i (s : State) (x : Nibble) (b : Byte) : (s.setV x b).i = s.i := rfl
@[simp] theorem State.setV_pc (s : State) (x : Nibble) (b : Byte) : (s.setV x b).pc = s.pc := rfl
@[simp] theorem State.setV_sp (s : State) (x : Nibble) (b : Byte) : (s.setV x b).sp = s.sp := rfl
@[simp] theorem State.setV_stack (s : State) (x : Nibble) (b : Byte) : (s.setV x b).stack = s.stack := rfl
@[simp] theorem State.setV_dt (s : State) (x : Nibble) (b : Byte) : (s.setV x b).dt = s.dt := rfl
@[simp] theorem State.setV_st (s : State) (x : Nibble) (b : Byte) : (s.setV x b).st = s.st := rfl
@[simp] theorem State.setV_key (s : State) (x : Nibble) (b : Byte) : (s.setV x b).key = s.key := rfl
@[simp] theorem State.setV_disp (s : State) (x : Nibble) (b : Byte) : (s.setV x b).disp = s.disp := rfl
@[simp] theorem State.setV_opcode (s : State) (x : Nibble) (b : Byte) : (s.setV x b).opcode = s.opcode := rfl
@[simp] theorem State.setV_drawFlag (s : State) (x : Nibble) (b : Byte) : (s.setV x b).drawFlag = s.drawFlag := rfl
@[simp] theorem State.setV_mem (s : State) (x : Nibble) (b : Byte) : (s.setV x b).mem = s.mem := rfl
@[simp] theorem State.setV_acc (s : State) (x : Nibble) (b : Byte) : (s.setV x b).acc = s.acc := rfl
@[simp] theorem State.setV_runMode (s : State) (x : Nibble) (b : Byte) : (s.setV x b).runMode = s.runMode := rfl
@[simp] theorem State.setV_halted (s : State) (x : Nibble) (b : Byte) : (s.setV x b).halted = s.halted := rfl
@[simp] theorem State.setV_fault (s : State) (x : Nibble) (b : Byte) : (s.setV x b).fault = s.fault := rfl
@[simp] theorem State.setV_clockHz (s : State) (x : Nibble) (b : Byte) : (s.setV x b).clockHz = s.clockHz := rfl
@[simp] theorem State.setV_draws (s : State) (x : Nibble) (b : Byte) : (s.setV x b).draws = s.draws := rfl
@[simp] theorem State.setV_events (s : State) (x : Nibble) (b : Byte) : (s.setV x b).events = s.events := rfl

/-! ### State.setPc -/

@[simp] theorem State.setPc_v (s : State) (p : Word) : (s.setPc p).v = s.v := rfl
@[simp] theorem State.setPc_i (s : State) (p : Word) : (s.setPc p).i = s.i := rfl
@[simp] theorem State.setPc_pc (s : State) (p : Word) : (s.setPc p).pc = p := rfl
@[simp] theorem State.setPc_sp (s : State) (p : Word) : (s.setPc p).sp = s.sp := rfl
@[simp] theorem State.setPc_stack (s : State) (p : Word) : (s.setPc p).stack = s.stack := rfl
@[simp] theorem State.setPc_dt (s : State) (p : Word) : (s.setPc p).dt = s.dt := rfl
@[simp] theorem State.setPc_st (s : State) (p : Word) : (s.setPc p).st = s.st := rfl
@[simp] theorem State.setPc_key (s : State) (p : Word) : (s.setPc p).key = s.key := rfl
@[simp] theorem State.setPc_disp (s : State) (p : Word) : (s.setPc p).disp = s.disp := rfl
@[simp] theorem State.setPc_opcode (s : State) (p : Word) : (s.setPc p).opcode = s.opcode := rfl
@[simp] theorem State.setPc_drawFlag (s : State) (p : Word) : (s.setPc p).drawFlag = s.drawFlag := rfl
@[simp] theorem State.setPc_mem (s : State) (p : Word) : (s.setPc p).mem = s.mem := rfl
@[simp] theorem State.setPc_acc (s : State) (p : Word) : (s.setPc p).acc = s.acc := rfl
@[simp] theorem State.setPc_runMode (s : State) (p : Word) : (s.setPc p).runMode = s.runMode := rfl
@[simp] theorem State.setPc_halted (s : State) (p : Word) : (s.setPc p).halted = s.halted := rfl
@[simp] theorem State.setPc_fault (s : State) (p : Word) : (s.setPc p).fault = s.fault := rfl
@[simp] theorem State.setPc_clockHz (s : State) (p : Word) : (s.setPc p).clockHz = s.clockHz := rfl
@[simp] theorem State.setPc_draws (s : State) (p : Word) : (s.setPc p).draws = s.draws := rfl
@[simp] theorem State.setPc_events (s : State) (p : Word) : (s.setPc p).events = s.events := rfl

/-! ### State.advance -/

@[simp] theorem State.advance_v (s : State) : s.advance.v = s.v := rfl
@[simp] theorem State.advance_i (s : State) : s.advance.i = s.i := rfl
@[simp] theorem State.advance_pc (s : State) : s.advance.pc = s.pc + 2#16 := rfl
@[simp] theorem State.advance_sp (s : State) : s.advance.sp = s.sp := rfl
@[simp] theorem State.advance_stack (s : State) : s.advance.stack = s.stack := rfl
@[simp] theorem State.advance_dt (s : State) : s.advance.dt = s.dt := rfl
@[simp] theorem State.advance_st (s : State) : s.advance.st = s.st := rfl
@[simp] theorem State.advance_key (s : State) : s.advance.key = s.key := rfl
@[simp] theorem State.advance_disp (s : State) : s.advance.disp = s.disp := rfl
@[simp] theorem State.advance_opcode (s : State) : s.advance.opcode = s.opcode := rfl
@[simp] theorem State.advance_drawFlag (s : State) : s.advance.drawFlag = s.drawFlag := rfl
@[simp] theorem State.advance_mem (s : State) : s.advance.mem = s.mem := rfl
@[simp] theorem State.advance_acc (s : State) : s.advance.acc = s.acc := rfl
@[simp] theorem State.advance_runMode (s : State) : s.advance.runMode = s.runMode := rfl
@[simp] theorem State.advance_halted (s : State) : s.advance.halted = s.halted := rfl
@[simp] theorem State.advance_fault (s : State) : s.advance.fault = s.fault := rfl
@[simp] theorem State.advance_clockHz (s : State) : s.advance.clockHz = s.clockHz := rfl
@[simp] theorem State.advance_draws (s : State) : s.advance.draws = s.draws := rfl
@[simp] theorem State.advance_events (s : State) : s.advance.events = s.events := rfl

/-! ### State.emit -/

@[simp] theorem State.emit_v (s : State) (e : Event) : (s.emit e).v = s.v := rfl
@[simp] theorem State.emit_i (s : State) (e : Event) : (s.emit e).i = s.i := rfl
@[simp] theorem State.emit_pc (s : State) (e : Event) : (s.emit e).pc = s.pc := rfl
@[simp] theorem State.emit_sp (s : State) (e : Event) : (s.emit e).sp = s.sp := rfl
@[simp] theorem State.emit_stack (s : State) (e : Event) : (s.emit e).stack = s.stack := rfl
@[simp] theorem State.emit_dt (s : State) (e : Event) : (s.emit e).dt = s.dt := rfl
@[simp] theorem State.emit_st (s : State) (e : Event) : (s.emit e).st = s.st := rfl
@[simp] theorem State.emit_key (s : State) (e : Event) : (s.emit e).key = s.key := rfl
@[simp] theorem State.emit_disp (s : State) (e : Event) : (s.emit e).disp = s.disp := rfl
@[simp] theorem State.emit_opcode (s : State) (e : Event) : (s.emit e).opcode = s.opcode := rfl
@[simp] theorem State.emit_drawFlag (s : State) (e : Event) : (s.emit e).drawFlag = s.drawFlag := rfl
@[simp] theorem State.emit_mem (s : State) (e : Event) : (s.emit e).mem = s.mem := rfl
@[simp] theorem State.emit_acc (s : State) (e : Event) : (s.emit e).acc = s.acc := rfl
@[simp] theorem State.emit_runMode (s : State) (e : Event) : (s.emit e).runMode = s.runMode := rfl
@[simp] theorem State.emit_halted (s : State) (e : Event) : (s.emit e).halted = s.halted := rfl
@[simp] theorem State.emit_fault (s : State) (e : Event) : (s.emit e).fault = s.fault := rfl
@[simp] theorem State.emit_clockHz (s : State) (e : Event) : (s.emit e).clockHz = s.clockHz := rfl
@[simp] theorem State.emit_draws (s : State) (e : Event) : (s.emit e).draws = s.draws := rfl
@[simp] theorem State.emit_events (s : State) (e : Event) : (s.emit e).events = s.events ++ [e] := rfl

/-! ### State.writeRF -/

@[simp] theorem State.writeRF_v (s : State) (x : Nibble) (r f : Byte) : (s.writeRF x r f).v = writeRFRegs Config.flagOrder x r f s.v := rfl
@[simp] theorem State.writeRF_i (s : State) (x : Nibble) (r f : Byte) : (s.writeRF x r f).i = s.i := rfl
@[simp] theorem State.writeRF_pc (s : State) (x : Nibble) (r f : Byte) : (s.writeRF x r f).pc = s.pc := rfl
@[simp] theorem State.writeRF_sp (s : State) (x : Nibble) (r f : Byte) : (s.writeRF x r f).sp = s.sp := rfl
@[simp] theorem State.writeRF_stack (s : State) (x : Nibble) (r f : Byte) : (s.writeRF x r f).stack = s.stack := rfl
@[simp] theorem State.writeRF_dt (s : State) (x : Nibble) (r f : Byte) : (s.writeRF x r f).dt = s.dt := rfl
@[simp] theorem State.writeRF_st (s : State) (x : Nibble) (r f : Byte) : (s.writeRF x r f).st = s.st := rfl
@[simp] theorem State.writeRF_key (s : State) (x : Nibble) (r f : Byte) : (s.writeRF x r f).key = s.key := rfl
@[simp] theorem State.writeRF_disp (s : State) (x : Nibble) (r f : Byte) : (s.writeRF x r f).disp = s.disp := rfl
@[simp] theorem State.writeRF_opcode (s : State) (x : Nibble) (r f : Byte) : (s.writeRF x r f).opcode = s.opcode := rfl
@[simp] theorem State.writeRF_drawFlag (s : State) (x : Nibble) (r f : Byte) : (s.writeRF x r f).drawFlag = s.drawFlag := rfl
@[simp] theorem State.writeRF_mem (s : State) (x : Nibble) (r f : Byte) : (s.writeRF x r f).mem = s.mem := rfl
@[simp] theorem State.writeRF_acc (s : State) (x : Nibble) (r f : Byte) : (s.writeRF x r f).acc = s.acc := rfl
@[simp] theorem State.writeRF_runMode (s : State) (x : Nibble) (r f : Byte) : (s.writeRF x r f).runMode = s.runMode := rfl
@[simp] theorem State.writeRF_halted (s : State) (x : Nibble) (r f : Byte) : (s.writeRF x r f).halted = s.halted := rfl
@[simp] theorem State.writeRF_fault (s : State) (x : Nibble) (r f : Byte) : (s.writeRF x r f).fault = s.fault := rfl
@[simp] theorem State.writeRF_clockHz (s : State) (x : Nibble) (r f : Byte) : (s.writeRF x r f).clockHz = s.clockHz := rfl
@[simp] theorem State.writeRF_draws (s : State) (x : Nibble) (r f : Byte) : (s.writeRF x r f).draws = s.draws := rfl
@[simp] theorem State.writeRF_events (s : State) (x : Nibble) (r f : Byte) : (s.writeRF x r f).events = s.events := rfl

/-! ### State.storeAtI -/

@[simp] theorem State.storeAtI_v (s : State) (bs : List Byte) : (s.storeAtI bs).v = s.v := rfl
@[simp] theorem State.storeAtI_i (s : State) (bs : List Byte) : (s.storeAtI bs).i = s.i := rfl
@[simp] theorem State.storeAtI_pc (s : State) (bs : List Byte) : (s.storeAtI bs).pc = s.pc := rfl
@[simp] theorem State.storeAtI_sp (s : State) (bs : List Byte) : (s.storeAtI bs).sp = s.sp := rfl
@[simp] theorem State.storeAtI_stack (s : State) (bs : List Byte) : (s.storeAtI bs).stack = s.stack := rfl
@[simp] theorem State.storeAtI_dt (s : State) (bs : List Byte) : (s.storeAtI bs).dt = s.dt := rfl
@[simp] theorem State.storeAtI_st (s : State) (bs : List Byte) : (s.storeAtI bs).st = s.st := rfl
@[simp] theorem State.storeAtI_key (s : State) (bs : List Byte) : (s.storeAtI bs).key = s.key := rfl
@[simp] theorem State.storeAtI_disp (s : State) (bs : List Byte) : (s.storeAtI bs).disp = s.disp := rfl
@[simp] theorem State.storeAtI_opcode (s : State) (bs : List Byte) : (s.storeAtI bs).opcode = s.opcode := rfl
@[simp] theorem State.storeAtI_drawFlag (s : State) (bs : List Byte) : (s.storeAtI bs).drawFlag = s.drawFlag := rfl
@[simp] theorem State.storeAtI_mem (s : State) (bs : List Byte) : (s.storeAtI bs).mem = writeBytes s.mem s.i.toNat bs := rfl
@[simp] theorem State.storeAtI_acc (s : State) (bs : List Byte) : (s.storeAtI bs).acc = s.acc := rfl
@[simp] theorem State.storeAtI_runMode (s : State) (bs : List Byte) : (s.storeAtI bs).runMode = s.runMode := rfl
@[simp] theorem State.storeAtI_halted (s : State) (bs : List Byte) : (s.storeAtI bs).halted = s.halted := rfl
@[simp] theorem State.storeAtI_fault (s : State) (bs : List Byte) : (s.storeAtI bs).fault = s.fault := rfl
@[simp] theorem State.storeAtI_clockHz (s : State) (bs : List Byte) : (s.storeAtI bs).clockHz = s.clockHz := rfl
@[simp] theorem State.storeAtI_draws (s : State) (bs : List Byte) : (s.storeAtI bs).draws = s.draws := rfl
@[simp] theorem State.storeAtI_events (s : State) (bs : List Byte) : (s.storeAtI bs).events = s.events := rfl

/-! ### skipIf -/

@[simp] theorem skipIf_v (cond : Bool) (s : State) : (skipIf cond s).v = s.v := rfl
@[simp] theorem skipIf_i (cond : Bool) (s : State) : (skipIf cond s).i = s.i := rfl
@[simp] theorem skipIf_pc (cond : Bool) (s : State) : (skipIf cond s).pc =
    if cond then s.pc + 4#16 else s.pc + 2#16 := rfl
@[simp] theorem skipIf_sp (cond : Bool) (s : State) : (skipIf cond s).sp = s.sp := rfl
@[simp] theorem skipIf_stack (cond : Bool) (s : State) : (skipIf cond s).stack = s.stack := rfl
@[simp] theorem skipIf_dt (cond : Bool) (s : State) : (skipIf cond s).dt = s.dt := rfl
@[simp] theorem skipIf_st (cond : Bool) (s : State) : (skipIf cond s).st = s.st := rfl
@[simp] theorem skipIf_key (cond : Bool) (s : State) : (skipIf cond s).key = s.key := rfl
@[simp] theorem skipIf_disp (cond : Bool) (s : State) : (skipIf cond s).disp = s.disp := rfl
@[simp] theorem skipIf_opcode (cond : Bool) (s : State) : (skipIf cond s).opcode = s.opcode := rfl
@[simp] theorem skipIf_drawFlag (cond : Bool) (s : State) : (skipIf cond s).drawFlag = s.drawFlag := rfl
@[simp] theorem skipIf_mem (cond : Bool) (s : State) : (skipIf cond s).mem = s.mem := rfl
@[simp] theorem skipIf_acc (cond : Bool) (s : State) : (skipIf cond s).acc = s.acc := rfl
@[simp] theorem skipIf_runMode (cond : Bool) (s : State) : (skipIf cond s).runMode = s.runMode := rfl
@[simp] theorem skipIf_halted (cond : Bool) (s : State) : (skipIf cond s).halted = s.halted := rfl
@[simp] theorem skipIf_fault (cond : Bool) (s : State) : (skipIf cond s).fault = s.fault := rfl
@[simp] theorem skipIf_clockHz (cond : Bool) (s : State) : (skipIf cond s).clockHz = s.clockHz := rfl
@[simp] theorem skipIf_draws (cond : Bool) (s : State) : (skipIf cond s).draws = s.draws := rfl
@[simp] theorem skipIf_events (cond : Bool) (s : State) : (skipIf cond s).events = s.events := rfl

/-! ### raiseFault -/

@[simp] theorem raiseFault_v (c : Cause) (n : Nat) (s : State) : (raiseFault c n s).v = s.v := rfl
@[simp] theorem raiseFault_i (c : Cause) (n : Nat) (s : State) : (raiseFault c n s).i = s.i := rfl
@[simp] theorem raiseFault_pc (c : Cause) (n : Nat) (s : State) : (raiseFault c n s).pc = s.pc := rfl
@[simp] theorem raiseFault_sp (c : Cause) (n : Nat) (s : State) : (raiseFault c n s).sp = s.sp := rfl
@[simp] theorem raiseFault_stack (c : Cause) (n : Nat) (s : State) : (raiseFault c n s).stack = s.stack := rfl
@[simp] theorem raiseFault_dt (c : Cause) (n : Nat) (s : State) : (raiseFault c n s).dt = s.dt := rfl
@[simp] theorem raiseFault_st (c : Cause) (n : Nat) (s : State) : (raiseFault c n s).st = s.st := rfl
@[simp] theorem raiseFault_key (c : Cause) (n : Nat) (s : State) : (raiseFault c n s).key = s.key := rfl
@[simp] theorem raiseFault_disp (c : Cause) (n : Nat) (s : State) : (raiseFault c n s).disp = s.disp := rfl
@[simp] theorem raiseFault_opcode (c : Cause) (n : Nat) (s : State) : (raiseFault c n s).opcode = s.opcode := rfl
@[simp] theorem raiseFault_drawFlag (c : Cause) (n : Nat) (s : State) : (raiseFault c n s).drawFlag = s.drawFlag := rfl
@[simp] theorem raiseFault_mem (c : Cause) (n : Nat) (s : State) : (raiseFault c n s).mem = s.mem := rfl
@[simp] theorem raiseFault_acc (c : Cause) (n : Nat) (s : State) : (raiseFault c n s).acc = s.acc := rfl
@[simp] theorem raiseFault_runMode (c : Cause) (n : Nat) (s : State) : (raiseFault c n s).runMode = s.runMode := rfl
@[simp] theorem raiseFault_halted (c : Cause) (n : Nat) (s : State) : (raiseFault c n s).halted = true := rfl
@[simp] theorem raiseFault_fault (c : Cause) (n : Nat) (s : State) : (raiseFault c n s).fault = ⟨c, s.pc, n⟩ := rfl
@[simp] theorem raiseFault_clockHz (c : Cause) (n : Nat) (s : State) : (raiseFault c n s).clockHz = s.clockHz := rfl
@[simp] theorem raiseFault_draws (c : Cause) (n : Nat) (s : State) : (raiseFault c n s).draws = s.draws := rfl
@[simp] theorem raiseFault_events (c : Cause) (n : Nat) (s : State) : (raiseFault c n s).events =
    s.events ++ [.fault c s.pc n] := rfl

/-! ### raiseMemOob -/

@[simp] theorem raiseMemOob_v (b : Addr) (s : State) : (raiseMemOob b s).v = s.v := rfl
@[simp] theorem raiseMemOob_i (b : Addr) (s : State) : (raiseMemOob b s).i = s.i := rfl
@[simp] theorem raiseMemOob_pc (b : Addr) (s : State) : (raiseMemOob b s).pc = s.pc := rfl
@[simp] theorem raiseMemOob_sp (b : Addr) (s : State) : (raiseMemOob b s).sp = s.sp := rfl
@[simp] theorem raiseMemOob_stack (b : Addr) (s : State) : (raiseMemOob b s).stack = s.stack := rfl
@[simp] theorem raiseMemOob_dt (b : Addr) (s : State) : (raiseMemOob b s).dt = s.dt := rfl
@[simp] theorem raiseMemOob_st (b : Addr) (s : State) : (raiseMemOob b s).st = s.st := rfl
@[simp] theorem raiseMemOob_key (b : Addr) (s : State) : (raiseMemOob b s).key = s.key := rfl
@[simp] theorem raiseMemOob_disp (b : Addr) (s : State) : (raiseMemOob b s).disp = s.disp := rfl
@[simp] theorem raiseMemOob_opcode (b : Addr) (s : State) : (raiseMemOob b s).opcode = s.opcode := rfl
@[simp] theorem raiseMemOob_drawFlag (b : Addr) (s : State) : (raiseMemOob b s).drawFlag = s.drawFlag := rfl
@[simp] theorem raiseMemOob_mem (b : Addr) (s : State) : (raiseMemOob b s).mem = s.mem := rfl
@[simp] theorem raiseMemOob_acc (b : Addr) (s : State) : (raiseMemOob b s).acc = s.acc := rfl
@[simp] theorem raiseMemOob_runMode (b : Addr) (s : State) : (raiseMemOob b s).runMode = s.runMode := rfl
@[simp] theorem raiseMemOob_halted (b : Addr) (s : State) : (raiseMemOob b s).halted = true := rfl
@[simp] theorem raiseMemOob_fault (b : Addr) (s : State) : (raiseMemOob b s).fault =
    ⟨.memOob, s.pc, max b.toNat 0x1000⟩ := rfl
@[simp] theorem raiseMemOob_clockHz (b : Addr) (s : State) : (raiseMemOob b s).clockHz = s.clockHz := rfl
@[simp] theorem raiseMemOob_draws (b : Addr) (s : State) : (raiseMemOob b s).draws = s.draws := rfl
@[simp] theorem raiseMemOob_events (b : Addr) (s : State) : (raiseMemOob b s).events =
    s.events ++ [.fault .memOob s.pc (max b.toNat 0x1000)] := rfl

/-! ### tick -/

@[simp] theorem tick_v (s : State) : (tick s).v = s.v := rfl
@[simp] theorem tick_i (s : State) : (tick s).i = s.i := rfl
@[simp] theorem tick_pc (s : State) : (tick s).pc = s.pc := rfl
@[simp] theorem tick_sp (s : State) : (tick s).sp = s.sp := rfl
@[simp] theorem tick_stack (s : State) : (tick s).stack = s.stack := rfl
@[simp] theorem tick_dt (s : State) : (tick s).dt = timerDown s.dt := rfl
@[simp] theorem tick_st (s : State) : (tick s).st = timerDown s.st := rfl
@[simp] theorem tick_key (s : State) : (tick s).key = s.key := rfl
@[simp] theorem tick_disp (s : State) : (tick s).disp = s.disp := rfl
@[simp] theorem tick_opcode (s : State) : (tick s).opcode = s.opcode := rfl
@[simp] theorem tick_drawFlag (s : State) : (tick s).drawFlag = s.drawFlag := rfl
@[simp] theorem tick_mem (s : State) : (tick s).mem = s.mem := rfl
@[simp] theorem tick_acc (s : State) : (tick s).acc = s.acc := rfl
@[simp] theorem tick_runMode (s : State) : (tick s).runMode = s.runMode := rfl
@[simp] theorem tick_halted (s : State) : (tick s).halted = s.halted := rfl
@[simp] theorem tick_fault (s : State) : (tick s).fault = s.fault := rfl
@[simp] theorem tick_clockHz (s : State) : (tick s).clockHz = s.clockHz := rfl
@[simp] theorem tick_draws (s : State) : (tick s).draws = s.draws := rfl
@[simp] theorem tick_events (s : State) : (tick s).events =
    if s.st = 1#8 then s.events ++ [.tone 1000 50] else s.events := rfl

end Sys2Proof.Machine
end

