-- ==== Sys2Proof/Laws/Exec.lean ====
section
/-! SUPPORT. What execute can do, said once for all instructions: it takes a fault, or it goes on and leaves alone
everything that only the scheduler, the fetch or the host write. -/

namespace Sys2Proof.Machine

/-- The fields that no instruction writes unless it faults. -/
def SameOutsideProgram (s t : State) : Prop :=
  t.key = s.key ∧ t.opcode = s.opcode ∧ t.acc = s.acc ∧ t.runMode = s.runMode ∧ t.halted = s.halted ∧
    t.fault = s.fault ∧ t.clockHz = s.clockHz ∧ t.events = s.events

/-- The two shapes of an instruction's next state. -/
def ExecShape (s : State) (o : Host.Outcome State Fault Refusal) : Prop :=
  (∃ cause info, cause ≠ .none ∧ o = .next (raiseFault cause info s)) ∨
    ∃ t, o = .next t ∧ SameOutsideProgram s t

theorem ExecShape.goesOn {s t : State} (h : SameOutsideProgram s t) : ExecShape s (.next t) := .inr ⟨t, rfl, h⟩

theorem ExecShape.faults {s : State} {cause : Cause} {info : Nat} (h : cause ≠ .none) :
    ExecShape s (.next (raiseFault cause info s)) := .inl ⟨cause, info, h, rfl⟩

/-- A next state of such an outcome is a fault entry, or goes on. -/
theorem ExecShape.next_cases {s t : State} {o : Host.Outcome State Fault Refusal} (ho : ExecShape s o)
    (h : o = .next t) :
    (∃ cause info, cause ≠ .none ∧ t = raiseFault cause info s) ∨ SameOutsideProgram s t := by
  rcases ho with ⟨c, n, hc, e⟩ | ⟨u, e, hu⟩
  · rw [e] at h; cases h; exact .inl ⟨c, n, hc, rfl⟩
  · rw [e] at h; cases h; exact .inr hu

theorem execShape_ret (s : State) : ExecShape s (execRet s) := by
  unfold execRet; split
  · exact .goesOn ⟨rfl, rfl, rfl, rfl, rfl, rfl, rfl, rfl⟩
  · exact .faults (by decide)

theorem execShape_call (nnn : Addr) (s : State) : ExecShape s (execCall nnn s) := by
  unfold execCall; split
  · exact .goesOn ⟨rfl, rfl, rfl, rfl, rfl, rfl, rfl, rfl⟩
  · exact .faults (by decide)

theorem execShape_skp (x : Nibble) (s : State) : ExecShape s (execSkp x s) := by
  unfold execSkp; split
  · exact .goesOn ⟨rfl, rfl, rfl, rfl, rfl, rfl, rfl, rfl⟩
  · exact .faults (by decide)

theorem execShape_sknp (x : Nibble) (s : State) : ExecShape s (execSknp x s) := by
  unfold execSknp; split
  · exact .goesOn ⟨rfl, rfl, rfl, rfl, rfl, rfl, rfl, rfl⟩
  · exact .faults (by decide)

theorem execShape_addI (x : Nibble) (s : State) : ExecShape s (execAddI x s) := by
  unfold execAddI; split
  · exact .goesOn ⟨rfl, rfl, rfl, rfl, rfl, rfl, rfl, rfl⟩
  · exact .faults (by decide)

theorem execShape_ldF (x : Nibble) (s : State) : ExecShape s (execLdF x s) := by
  unfold execLdF; split
  · exact .goesOn ⟨rfl, rfl, rfl, rfl, rfl, rfl, rfl, rfl⟩
  · exact .faults (by decide)

theorem execShape_ldB (x : Nibble) (s : State) : ExecShape s (execLdB x s) := by
  unfold execLdB; split
  · exact .goesOn ⟨rfl, rfl, rfl, rfl, rfl, rfl, rfl, rfl⟩
  · exact .faults (by decide)

theorem execShape_ldMemV (x : Nibble) (s : State) : ExecShape s (execLdMemV x s) := by
  unfold execLdMemV; split
  · exact .goesOn ⟨rfl, rfl, rfl, rfl, rfl, rfl, rfl, rfl⟩
  · exact .faults (by decide)

theorem execShape_ldVMem (x : Nibble) (s : State) : ExecShape s (execLdVMem x s) := by
  unfold execLdVMem; split
  · exact .goesOn ⟨rfl, rfl, rfl, rfl, rfl, rfl, rfl, rfl⟩
  · exact .faults (by decide)

theorem execShape_ldVK (x : Nibble) (s : State) : ExecShape s (execLdVK x s) := by
  unfold execLdVK; split
  · exact .goesOn ⟨rfl, rfl, rfl, rfl, rfl, rfl, rfl, rfl⟩
  · exact .goesOn ⟨rfl, rfl, rfl, rfl, rfl, rfl, rfl, rfl⟩

theorem execShape_drw (x y n : Nibble) (s : State) : ExecShape s (execDrw x y n s) := by
  unfold execDrw; split
  · exact .goesOn ⟨rfl, rfl, rfl, rfl, rfl, rfl, rfl, rfl⟩
  · exact .faults (by decide)

/-- Every instruction, in every state: a fault entry with a cause, or a state that agrees outside the program's own
state. -/
theorem execShape (i : Instr) (s : State) : ExecShape s (exec i s) := by
  cases i with
  | ret => exact execShape_ret s
  | call nnn => exact execShape_call nnn s
  | skp x => exact execShape_skp x s
  | sknp x => exact execShape_sknp x s
  | addI x => exact execShape_addI x s
  | ldF x => exact execShape_ldF x s
  | ldB x => exact execShape_ldB x s
  | ldMemV x => exact execShape_ldMemV x s
  | ldVMem x => exact execShape_ldVMem x s
  | ldVK x => exact execShape_ldVK x s
  | drw x y n => exact execShape_drw x y n s
  | _ => exact .goesOn ⟨rfl, rfl, rfl, rfl, rfl, rfl, rfl, rfl⟩

end Sys2Proof.Machine
end

