-- ==== Sys2Proof/Laws/Fields.lean ====
section
/-! SUPPORT. The fields of the encoder's three word shapes, and a fetched word's bytes. -/

namespace Sys2Proof

/-! The fields of a word as numbers, for goals that omega closes. -/

theorem toNat_fieldClass (w : Word) : (fieldClass w).toNat = w.toNat / 4096 := by
  have := w.isLt
  simp only [fieldClass, BitVec.extractLsb'_toNat, Nat.shiftRight_eq_div_pow]; omega

theorem toNat_fieldX (w : Word) : (fieldX w).toNat = w.toNat / 256 % 16 := by
  simp [fieldX, BitVec.extractLsb'_toNat, Nat.shiftRight_eq_div_pow]

theorem toNat_fieldY (w : Word) : (fieldY w).toNat = w.toNat / 16 % 16 := by
  simp [fieldY, BitVec.extractLsb'_toNat, Nat.shiftRight_eq_div_pow]

theorem toNat_fieldN (w : Word) : (fieldN w).toNat = w.toNat % 16 := by
  simp [fieldN, BitVec.extractLsb'_toNat]

theorem toNat_fieldKK (w : Word) : (fieldKK w).toNat = w.toNat % 256 := by
  simp [fieldKK, BitVec.extractLsb'_toNat]

theorem toNat_fieldNNN (w : Word) : (fieldNNN w).toNat = w.toNat % 4096 := by
  simp [fieldNNN, BitVec.extractLsb'_toNat]

theorem toNat_wordNNN (c : Nibble) (nnn : Addr) : (wordNNN c nnn).toNat = c.toNat * 4096 + nnn.toNat := by
  have := nnn.isLt
  rw [wordNNN, BitVec.toNat_append, ← Nat.shiftLeft_add_eq_or_of_lt this, Nat.shiftLeft_eq]

theorem toNat_wordXKK (c x : Nibble) (kk : Byte) :
    (wordXKK c x kk).toNat = c.toNat * 4096 + x.toNat * 256 + kk.toNat := by
  have h1 := kk.isLt
  have h2 := (x ++ kk).isLt
  have e : (x ++ kk).toNat = x.toNat * 256 + kk.toNat := by
    rw [BitVec.toNat_append, ← Nat.shiftLeft_add_eq_or_of_lt h1, Nat.shiftLeft_eq]
  rw [wordXKK, BitVec.toNat_append, ← Nat.shiftLeft_add_eq_or_of_lt h2, Nat.shiftLeft_eq, e]; omega

theorem toNat_wordXYN (c x y n : Nibble) :
    (wordXYN c x y n).toNat = c.toNat * 4096 + x.toNat * 256 + y.toNat * 16 + n.toNat := by
  have h1 := n.isLt
  have h2 := (y ++ n).isLt
  have h3 := (x ++ (y ++ n)).isLt
  have e : (y ++ n).toNat = y.toNat * 16 + n.toNat := by
    rw [BitVec.toNat_append, ← Nat.shiftLeft_add_eq_or_of_lt h1, Nat.shiftLeft_eq]
  have e' : (x ++ (y ++ n)).toNat = x.toNat * 256 + (y ++ n).toNat := by
    rw [BitVec.toNat_append, ← Nat.shiftLeft_add_eq_or_of_lt h2, Nat.shiftLeft_eq]
  rw [wordXYN, BitVec.toNat_append, ← Nat.shiftLeft_add_eq_or_of_lt h3, Nat.shiftLeft_eq, e', e]; omega

theorem toNat_composeWord (hi lo : Byte) : (composeWord hi lo).toNat = hi.toNat * 256 + lo.toNat := by
  have := lo.isLt
  rw [composeWord, BitVec.toNat_append, ← Nat.shiftLeft_add_eq_or_of_lt this, Nat.shiftLeft_eq]

theorem toNat_highByte (w : Word) : (highByte w).toNat = w.toNat / 256 := by
  have := w.isLt
  simp only [highByte, BitVec.extractLsb'_toNat, Nat.shiftRight_eq_div_pow]; omega

theorem toNat_lowByte (w : Word) : (lowByte w).toNat = w.toNat % 256 := by
  simp [lowByte, BitVec.extractLsb'_toNat]

/-- A word's two bytes, in memory order, compose to the word. -/
theorem composeWord_bytes (w : Word) : composeWord (highByte w) (lowByte w) = w := by
  apply BitVec.eq_of_toNat_eq
  rw [toNat_composeWord, toNat_highByte, toNat_lowByte]; omega

/-! The fields of the encoder's words. -/

@[simp] theorem fieldClass_wordNNN (c : Nibble) (nnn : Addr) : fieldClass (wordNNN c nnn) = c := by
  apply BitVec.eq_of_toNat_eq
  have := nnn.isLt
  rw [toNat_fieldClass, toNat_wordNNN]; omega

@[simp] theorem fieldNNN_wordNNN (c : Nibble) (nnn : Addr) : fieldNNN (wordNNN c nnn) = nnn := by
  apply BitVec.eq_of_toNat_eq
  have := nnn.isLt
  rw [toNat_fieldNNN, toNat_wordNNN]; omega

@[simp] theorem fieldClass_wordXKK (c x : Nibble) (kk : Byte) : fieldClass (wordXKK c x kk) = c := by
  apply BitVec.eq_of_toNat_eq
  have := x.isLt; have := kk.isLt
  rw [toNat_fieldClass, toNat_wordXKK]; omega

@[simp] theorem fieldX_wordXKK (c x : Nibble) (kk : Byte) : fieldX (wordXKK c x kk) = x := by
  apply BitVec.eq_of_toNat_eq
  have := x.isLt; have := kk.isLt
  rw [toNat_fieldX, toNat_wordXKK]; omega

@[simp] theorem fieldKK_wordXKK (c x : Nibble) (kk : Byte) : fieldKK (wordXKK c x kk) = kk := by
  apply BitVec.eq_of_toNat_eq
  have := kk.isLt
  rw [toNat_fieldKK, toNat_wordXKK]; omega

@[simp] theorem fieldClass_wordXYN (c x y n : Nibble) : fieldClass (wordXYN c x y n) = c := by
  apply BitVec.eq_of_toNat_eq
  have := x.isLt; have := y.isLt; have := n.isLt
  rw [toNat_fieldClass, toNat_wordXYN]; omega

@[simp] theorem fieldX_wordXYN (c x y n : Nibble) : fieldX (wordXYN c x y n) = x := by
  apply BitVec.eq_of_toNat_eq
  have := x.isLt; have := y.isLt; have := n.isLt
  rw [toNat_fieldX, toNat_wordXYN]; omega

@[simp] theorem fieldY_wordXYN (c x y n : Nibble) : fieldY (wordXYN c x y n) = y := by
  apply BitVec.eq_of_toNat_eq
  have := y.isLt; have := n.isLt
  rw [toNat_fieldY, toNat_wordXYN]; omega

@[simp] theorem fieldN_wordXYN (c x y n : Nibble) : fieldN (wordXYN c x y n) = n := by
  apply BitVec.eq_of_toNat_eq
  have := n.isLt
  rw [toNat_fieldN, toNat_wordXYN]; omega

/-! Every word is the word of its fields, in each of the three shapes. -/

theorem eq_wordNNN_of_toNat {w : Word} {c : Nibble} {nnn : Addr} (h : w.toNat = c.toNat * 4096 + nnn.toNat) :
    w = wordNNN c nnn :=
  BitVec.eq_of_toNat_eq (by rw [h, toNat_wordNNN])

theorem eq_wordXKK_of_toNat {w : Word} {c x : Nibble} {kk : Byte}
    (h : w.toNat = c.toNat * 4096 + x.toNat * 256 + kk.toNat) : w = wordXKK c x kk :=
  BitVec.eq_of_toNat_eq (by rw [h, toNat_wordXKK])

theorem eq_wordXYN_of_toNat {w : Word} {c x y n : Nibble}
    (h : w.toNat = c.toNat * 4096 + x.toNat * 256 + y.toNat * 16 + n.toNat) : w = wordXYN c x y n :=
  BitVec.eq_of_toNat_eq (by rw [h, toNat_wordXYN])

theorem eq_wordNNN_of_fields (w : Word) : w = wordNNN (fieldClass w) (fieldNNN w) :=
  eq_wordNNN_of_toNat (by rw [toNat_fieldClass, toNat_fieldNNN]; omega)

theorem eq_wordXKK_of_fields (w : Word) : w = wordXKK (fieldClass w) (fieldX w) (fieldKK w) :=
  eq_wordXKK_of_toNat (by rw [toNat_fieldClass, toNat_fieldX, toNat_fieldKK]; omega)

theorem eq_wordXYN_of_fields (w : Word) : w = wordXYN (fieldClass w) (fieldX w) (fieldY w) (fieldN w) :=
  eq_wordXYN_of_toNat (by rw [toNat_fieldClass, toNat_fieldX, toNat_fieldY, toNat_fieldN]; omega)

end Sys2Proof
end

