-- ==== Sys2Proof/Laws/Memory.lean ====
section
/-! SUPPORT. The laws of memory: reads after writes, and that every memory operation keeps the canonical form. -/

namespace Sys2Proof.Machine

theorem wfFrom_cons (lo k : Nat) (c : Byte) (m : List Host.Cell) :
    Memory.wfFrom lo ((k, c) :: m) = true ↔
      lo ≤ k ∧ k < 4096 ∧ c ≠ unlistedByte k ∧ Memory.wfFrom (k + 1) m = true := by
  simp [Memory.wfFrom, and_assoc]

theorem wfFrom_mono {lo lo' : Nat} (h : lo' ≤ lo) :
    ∀ {m : List Host.Cell}, Memory.wfFrom lo m = true → Memory.wfFrom lo' m = true
  | [], _ => rfl
  | (k, c) :: m, hm => by
    rw [wfFrom_cons] at hm ⊢
    exact ⟨by omega, hm.2⟩

/-- An address below every cell reads as unlisted. -/
theorem readByte_below {lo a : Nat} (h : a < lo) :
    ∀ {m : List Host.Cell}, Memory.wfFrom lo m = true → readByte m a = unlistedByte a
  | [], _ => rfl
  | (k, c) :: m, hm => by
    rw [wfFrom_cons] at hm
    rw [readByte, if_neg (by omega)]
    exact readByte_below (by omega) hm.2.2.2

/-- A write keeps the canonical form. -/
theorem wfFrom_writeByte {lo a : Nat} (b : Byte) (hlo : lo ≤ a) (ha : a < 4096) :
    ∀ {m : List Host.Cell}, Memory.wfFrom lo m = true → Memory.wfFrom lo (writeByte m a b) = true
  | [], _ => by
    rw [writeByte]
    split
    · rfl
    · next h => exact (wfFrom_cons _ _ _ _).2 ⟨hlo, ha, h, rfl⟩
  | (k, c) :: m, hm => by
    have hm' := (wfFrom_cons _ _ _ _).1 hm
    rw [writeByte]
    split
    · next hak =>
      split
      · exact hm
      · next h =>
        exact (wfFrom_cons _ _ _ _).2
          ⟨hlo, ha, h, (wfFrom_cons _ _ _ _).2 ⟨by omega, hm'.2.1, hm'.2.2.1, hm'.2.2.2⟩⟩
    · split
      · next hak =>
        subst hak
        split
        · exact wfFrom_mono (by omega) hm'.2.2.2
        · next h => exact (wfFrom_cons _ _ _ _).2 ⟨hlo, ha, h, hm'.2.2.2⟩
      · next h1 h2 =>
        exact (wfFrom_cons _ _ _ _).2
          ⟨hm'.1, hm'.2.1, hm'.2.2.1, wfFrom_writeByte b (by omega) ha hm'.2.2.2⟩

theorem wf_writeByte {m : List Host.Cell} {a : Nat} (b : Byte) (ha : a < 4096) (hm : Memory.wf m = true) :
    Memory.wf (writeByte m a b) = true :=
  wfFrom_writeByte b (Nat.zero_le _) ha hm

theorem wf_writeBytes : ∀ (bs : List Byte) {m : List Host.Cell} {base : Nat}, base + bs.length ≤ 4096 →
    Memory.wf m = true → Memory.wf (writeBytes m base bs) = true
  | [], _, _, _, hm => hm
  | b :: bs, _, _, h, hm =>
    wf_writeBytes bs (by simp at h; omega) (wf_writeByte b (by simp at h; omega) hm)

theorem wf_empty : Memory.wf [] = true := rfl

/-- A write leaves every other address as it was, whatever the list. -/
theorem readByte_writeByte_ne {a a' : Nat} (b : Byte) (h : a' ≠ a) :
    ∀ (m : List Host.Cell), readByte (writeByte m a b) a' = readByte m a'
  | [] => by
    rw [writeByte]
    split <;> simp [readByte, h]
  | (k, c) :: m => by
    rw [writeByte]
    split
    · split
      · rfl
      · rw [readByte, if_neg h]
    · split
      · next hak =>
        subst hak
        split <;> simp [readByte, h]
      · rw [readByte, readByte, readByte_writeByte_ne b h m]

/-- A read after a write to the same address gives the byte written. -/
theorem readByte_writeByte_same_from {lo a : Nat} (b : Byte) :
    ∀ {m : List Host.Cell}, Memory.wfFrom lo m = true → readByte (writeByte m a b) a = b
  | [], _ => by
    rw [writeByte]
    split
    · next h => rw [readByte, h]
    · simp [readByte]
  | (k, c) :: m, hm => by
    have hm' := (wfFrom_cons _ _ _ _).1 hm
    rw [writeByte]
    split
    · next hak =>
      split
      · next h => rw [readByte, if_neg (by omega), readByte_below (by omega) hm'.2.2.2, h]
      · simp [readByte]
    · split
      · next hak =>
        subst hak
        split
        · next h => rw [readByte_below (by omega) hm'.2.2.2, h]
        · simp [readByte]
      · next h1 h2 =>
        rw [readByte, if_neg h2]
        exact readByte_writeByte_same_from b hm'.2.2.2

theorem readByte_writeByte_same {m : List Host.Cell} (a : Nat) (b : Byte) (hm : Memory.wf m = true) :
    readByte (writeByte m a b) a = b :=
  readByte_writeByte_same_from b hm

/-- Bytes outside a written range read as before, whatever the list. -/
theorem readByte_writeBytes_outside {a : Nat} : ∀ (bs : List Byte) (m : List Host.Cell) (base : Nat),
    (a < base ∨ base + bs.length ≤ a) → readByte (writeBytes m base bs) a = readByte m a
  | [], _, _, _ => rfl
  | b :: bs, m, base, h => by
    simp only [List.length_cons] at h
    rw [writeBytes, readByte_writeBytes_outside bs _ _ (by omega), readByte_writeByte_ne b (by omega)]

/-- The k-th byte written is the byte read at base + k, in a canonical memory. -/
theorem readByte_writeBytes_at : ∀ (bs : List Byte) {m : List Host.Cell} {base : Nat} (k : Nat)
    (hk : k < bs.length), base + bs.length ≤ 4096 → Memory.wf m = true →
    readByte (writeBytes m base bs) (base + k) = bs[k]
  | [], _, _, _, hk, _, _ => absurd hk (by simp)
  | b :: bs, m, base, 0, _, h, hm => by
    simp only [List.length_cons] at h
    rw [writeBytes, readByte_writeBytes_outside bs _ _ (by omega)]
    exact readByte_writeByte_same base b hm
  | b :: bs, m, base, k + 1, hk, h, hm => by
    simp only [List.length_cons] at hk h
    rw [writeBytes, show base + (k + 1) = base + 1 + k by omega,
      readByte_writeBytes_at bs k (by omega) (by omega) (wf_writeByte b (by omega) hm)]
    rfl

@[simp] theorem length_readBytes (m : List Host.Cell) (base : Nat) : ∀ n, (readBytes m base n).length = n
  | 0 => rfl
  | n + 1 => by rw [readBytes, List.length_cons, length_readBytes m (base + 1) n]

theorem getElem_readBytes (m : List Host.Cell) : ∀ (n base k : Nat) (hk : k < (readBytes m base n).length),
    (readBytes m base n)[k] = readByte m (base + k)
  | 0, _, _, hk => absurd hk (by simp)
  | n + 1, base, 0, _ => rfl
  | n + 1, base, k + 1, hk => by
    simp only [length_readBytes] at hk
    simp only [readBytes, List.getElem_cons_succ]
    rw [getElem_readBytes m n (base + 1) k (by simp; omega)]
    congr 1; omega

/-- A range that passes the check of 20_memory.md R65 lies within the address space. -/
theorem memCheck_iff (base : Addr) (n : Nat) : memCheck base n = true ↔ base.toNat + n ≤ 4096 := by
  simp only [memCheck, decide_eq_true_eq]; omega

end Sys2Proof.Machine
end

