-- ==== Sys2Proof/Laws/PerInstr.lean ====
section
/-! SUPPORT. The per-instruction family TableRow: the word of every instruction has the fixed bits of the
instruction's own row of spec/opcode_table.json. A row's fixed bits are its class nibble and, in the groups 0, 8, E and F,
its low bits (30_encoding.md R94 to R98). -/

namespace Sys2Proof.Laws.TableRow

/-- The fixed bits of an instruction's row: the class nibble, and the modulus and the remainder of the low bits that the
row fixes (modulus 1 where it fixes none). Classes 5 and 9 fix no low bits (R99). -/
def fixedBits : Instr → Nat × Nat × Nat
  | .cls => (0x0, 4096, 0x0E0)
  | .ret => (0x0, 4096, 0x0EE)
  | .sys _ => (0x0, 1, 0)
  | .jp _ => (0x1, 1, 0)
  | .call _ => (0x2, 1, 0)
  | .seImm _ _ => (0x3, 1, 0)
  | .sneImm _ _ => (0x4, 1, 0)
  | .seReg _ _ => (0x5, 1, 0)
  | .ldImm _ _ => (0x6, 1, 0)
  | .addImm _ _ => (0x7, 1, 0)
  | .ldReg _ _ => (0x8, 16, 0x0)
  | .orReg _ _ => (0x8, 16, 0x1)
  | .andReg _ _ => (0x8, 16, 0x2)
  | .xorReg _ _ => (0x8, 16, 0x3)
  | .addReg _ _ => (0x8, 16, 0x4)
  | .sub _ _ => (0x8, 16, 0x5)
  | .shr _ _ => (0x8, 16, 0x6)
  | .subn _ _ => (0x8, 16, 0x7)
  | .shl _ _ => (0x8, 16, 0xE)
  | .sneReg _ _ => (0x9, 1, 0)
  | .ldI _ => (0xA, 1, 0)
  | .jpV0 _ => (0xB, 1, 0)
  | .rnd _ _ => (0xC, 1, 0)
  | .drw _ _ _ => (0xD, 1, 0)
  | .skp _ => (0xE, 256, 0x9E)
  | .sknp _ => (0xE, 256, 0xA1)
  | .ldVDt _ => (0xF, 256, 0x07)
  | .ldVK _ => (0xF, 256, 0x0A)
  | .ldDtV _ => (0xF, 256, 0x15)
  | .ldStV _ => (0xF, 256, 0x18)
  | .addI _ => (0xF, 256, 0x1E)
  | .ldF _ => (0xF, 256, 0x29)
  | .ldB _ => (0xF, 256, 0x33)
  | .ldMemV _ => (0xF, 256, 0x55)
  | .ldVMem _ => (0xF, 256, 0x65)

/-- The word of i has its row's class nibble and its row's fixed low bits. -/
def Statement (i : Instr) : Prop :=
  (encode i).toNat / 4096 = (fixedBits i).1 ∧ (encode i).toNat % (fixedBits i).2.1 = (fixedBits i).2.2

theorem of_wordNNN {i : Instr} {c : Nibble} {nnn : Addr} (he : encode i = wordNNN c nnn)
    (hf : fixedBits i = (c.toNat, 1, 0)) : Statement i := by
  have := nnn.isLt
  simp only [Statement, he, hf, toNat_wordNNN]; omega

theorem of_wordXKK {i : Instr} {c x : Nibble} {kk : Byte} (he : encode i = wordXKK c x kk)
    (hf : fixedBits i = (c.toNat, 1, 0) ∨ fixedBits i = (c.toNat, 256, kk.toNat)) : Statement i := by
  have := x.isLt; have := kk.isLt
  rcases hf with hf | hf <;> simp only [Statement, he, hf, toNat_wordXKK] <;> omega

theorem of_wordXYN {i : Instr} {c x y n : Nibble} (he : encode i = wordXYN c x y n)
    (hf : fixedBits i = (c.toNat, 1, 0) ∨ fixedBits i = (c.toNat, 16, n.toNat)) : Statement i := by
  have := x.isLt; have := y.isLt; have := n.isLt
  rcases hf with hf | hf <;> simp only [Statement, he, hf, toNat_wordXYN] <;> omega

theorem cls : Statement .cls := ⟨rfl, rfl⟩
theorem ret : Statement .ret := ⟨rfl, rfl⟩
theorem sys (nnn : Addr) : Statement (.sys nnn) := of_wordNNN rfl rfl
theorem jp (nnn : Addr) : Statement (.jp nnn) := of_wordNNN rfl rfl
theorem call (nnn : Addr) : Statement (.call nnn) := of_wordNNN rfl rfl
theorem seImm (x : Nibble) (kk : Byte) : Statement (.seImm x kk) := of_wordXKK rfl (.inl rfl)
theorem sneImm (x : Nibble) (kk : Byte) : Statement (.sneImm x kk) := of_wordXKK rfl (.inl rfl)
theorem seReg (x y : Nibble) : Statement (.seReg x y) := of_wordXYN rfl (.inl rfl)
theorem ldImm (x : Nibble) (kk : Byte) : Statement (.ldImm x kk) := of_wordXKK rfl (.inl rfl)
theorem addImm (x : Nibble) (kk : Byte) : Statement (.addImm x kk) := of_wordXKK rfl (.inl rfl)
theorem ldReg (x y : Nibble) : Statement (.ldReg x y) := of_wordXYN rfl (.inr rfl)
theorem orReg (x y : Nibble) : Statement (.orReg x y) := of_wordXYN rfl (.inr rfl)
theorem andReg (x y : Nibble) : Statement (.andReg x y) := of_wordXYN rfl (.inr rfl)
theorem xorReg (x y : Nibble) : Statement (.xorReg x y) := of_wordXYN rfl (.inr rfl)
theorem addReg (x y : Nibble) : Statement (.addReg x y) := of_wordXYN rfl (.inr rfl)
theorem sub (x y : Nibble) : Statement (.sub x y) := of_wordXYN rfl (.inr rfl)
theorem shr (x y : Nibble) : Statement (.shr x y) := of_wordXYN rfl (.inr rfl)
theorem subn (x y : Nibble) : Statement (.subn x y) := of_wordXYN rfl (.inr rfl)
theorem shl (x y : Nibble) : Statement (.shl x y) := of_wordXYN rfl (.inr rfl)
theorem sneReg (x y : Nibble) : Statement (.sneReg x y) := of_wordXYN rfl (.inl rfl)
theorem ldI (nnn : Addr) : Statement (.ldI nnn) := of_wordNNN rfl rfl
theorem jpV0 (nnn : Addr) : Statement (.jpV0 nnn) := of_wordNNN rfl rfl
theorem rnd (x : Nibble) (kk : Byte) : Statement (.rnd x kk) := of_wordXKK rfl (.inl rfl)
theorem drw (x y n : Nibble) : Statement (.drw x y n) := of_wordXYN rfl (.inl rfl)
theorem skp (x : Nibble) : Statement (.skp x) := of_wordXKK rfl (.inr rfl)
theorem sknp (x : Nibble) : Statement (.sknp x) := of_wordXKK rfl (.inr rfl)
theorem ldVDt (x : Nibble) : Statement (.ldVDt x) := of_wordXKK rfl (.inr rfl)
theorem ldVK (x : Nibble) : Statement (.ldVK x) := of_wordXKK rfl (.inr rfl)
theorem ldDtV (x : Nibble) : Statement (.ldDtV x) := of_wordXKK rfl (.inr rfl)
theorem ldStV (x : Nibble) : Statement (.ldStV x) := of_wordXKK rfl (.inr rfl)
theorem addI (x : Nibble) : Statement (.addI x) := of_wordXKK rfl (.inr rfl)
theorem ldF (x : Nibble) : Statement (.ldF x) := of_wordXKK rfl (.inr rfl)
theorem ldB (x : Nibble) : Statement (.ldB x) := of_wordXKK rfl (.inr rfl)
theorem ldMemV (x : Nibble) : Statement (.ldMemV x) := of_wordXKK rfl (.inr rfl)
theorem ldVMem (x : Nibble) : Statement (.ldVMem x) := of_wordXKK rfl (.inr rfl)

end Sys2Proof.Laws.TableRow
end

