-- ==== Sys2Proof/Laws/Plane.lean ====
section
/-! SUPPORT. The laws of the display plane's pixels and of one sprite bit. -/

namespace Sys2Proof.Machine

theorem pixelAt_setPixel (d : Plane) (r r' : Fin 32) (c c' : Fin 64) (b : Bool) :
    pixelAt (setPixel d r c b) r' c' = if r' = r ∧ c' = c then b else pixelAt d r' c' := by
  unfold pixelAt setPixel
  by_cases hr : r' = r
  · subst hr
    by_cases hc : c' = c
    · subst hc; simp
    · have : (c : Nat) ≠ c' := fun e => hc (Fin.ext e.symm)
      simp [this, hc]
  · have : (r : Nat) ≠ r' := fun e => hr (Fin.ext e.symm)
    simp [this, hr]

@[simp] theorem pixelAt_blankPlane (r : Fin 32) (c : Fin 64) : pixelAt blankPlane r c = false := by
  simp [pixelAt, blankPlane]

/-- Two planes with the same pixels are the same plane. -/
theorem plane_ext {d e : Plane} (h : ∀ r c, pixelAt d r c = pixelAt e r c) : d = e := by
  apply Vector.ext
  intro r hr
  apply Vector.ext
  intro c hc
  exact h ⟨r, hr⟩ ⟨c, hc⟩

/-- What one sprite bit does to each pixel. -/
theorem pixelAt_blitBit (x y : Byte) (row : Nat) (bits : Byte) (p : Plane × Bool) (col : Nat)
    (r : Fin 32) (c : Fin 64) :
    pixelAt (blitBit x y row bits p col).1 r c =
      (pixelAt p.1 r c ^^ (bits.getLsbD (7 - col) && decide (r = wrapRow y row ∧ c = wrapCol x col))) := by
  unfold blitBit
  cases bits.getLsbD (7 - col)
  · simp
  · simp only [if_true, pixelAt_setPixel, Bool.true_and]
    split
    · next h => rw [h.1, h.2]; simp
    · next h => simp [h]

/-- What one sprite bit does to the collision flag. -/
theorem collision_blitBit (x y : Byte) (row : Nat) (bits : Byte) (p : Plane × Bool) (col : Nat) :
    (blitBit x y row bits p col).2 =
      (p.2 || (bits.getLsbD (7 - col) && pixelAt p.1 (wrapRow y row) (wrapCol x col))) := by
  unfold blitBit
  cases bits.getLsbD (7 - col) <;> simp

/-- Rows of a sprite, the first of them number `row`, have a 1 bit on the pixel (46_display.md R272, R274). -/
def CoveredBy (x y : Byte) (row : Nat) (bits : List Byte) (r : Fin 32) (c : Fin 64) : Prop :=
  ∃ k col : Nat, k < bits.length ∧ col < 8 ∧ (y.toNat + (row + k)) % 32 = r ∧ (x.toNat + col) % 64 = c ∧
    (bits.getD k 0#8).getLsbD (7 - col) = true

/-- The first m bits of a sprite row toggle exactly the pixels under its 1 bits. -/
theorem pixelAt_blitBits (x y : Byte) (row : Nat) (bits : Byte) (r : Fin 32) (c : Fin 64) : ∀ (m : Nat) (_ : m ≤ 8) (p : Plane × Bool),
   (pixelAt ((List.range m).foldl (blitBit x y row bits) p).1 r c ≠ pixelAt p.1 r c ↔
     (y.toNat + row) % 32 = r ∧ ∃ col < m, (x.toNat + col) % 64 = c ∧ bits.getLsbD (7 - col) = true)
  | 0, _, p => by simp
  | m+1, hm, p => by
    rw [List.range_succ, List.foldl_append]
    have ih := pixelAt_blitBits x y row bits r c m (by omega) p
    simp only [List.foldl_cons, List.foldl_nil]
    rw [pixelAt_blitBit]
    generalize hq : (List.range m).foldl (blitBit x y row bits) p = q at ih
    have hr : r = wrapRow y row ↔ (y.toNat + row) % 32 = r := by rw [Fin.ext_iff]; simp [wrapRow, eq_comm]
    have hc : c = wrapCol x m ↔ (x.toNat + m) % 64 = c := by rw [Fin.ext_iff]; simp [wrapCol, eq_comm]
    by_cases hb : bits.getLsbD (7 - m) = true ∧ r = wrapRow y row ∧ c = wrapCol x m
    · have e : (bits.getLsbD (7 - m) && decide (r = wrapRow y row ∧ c = wrapCol x m)) = true := by simp [hb.1]; exact hb.2
      rw [e]
      have : pixelAt q.1 r c = pixelAt p.1 r c := by
        by_contra hne
        obtain ⟨_, col, h1, h2, h3⟩ := ih.1 hne
        have := hc.1 hb.2.2
        omega
      rw [this]
      simp only [Bool.bne_true, ne_eq]
      constructor
      · intro _; exact ⟨hr.1 hb.2.1, m, by omega, hc.1 hb.2.2, hb.1⟩
      · intro _; cases pixelAt p.1 r c <;> simp
    · have e : (bits.getLsbD (7 - m) && decide (r = wrapRow y row ∧ c = wrapCol x m)) = false := by
        by_contra h; simp at h; exact hb h
      rw [e, Bool.xor_false, ih]
      constructor
      · rintro ⟨h1, col, h2, h3⟩; exact ⟨h1, col, by omega, h3⟩
      · rintro ⟨h1, col, h2, h3, h4⟩
        refine ⟨h1, col, ?_, h3, h4⟩
        rcases Nat.lt_succ_iff_lt_or_eq.1 h2 with h | rfl
        · exact h
        · exact absurd ⟨h4, hr.2 h1, hc.2 h3⟩ hb

/-- The first m bits of a sprite row report a collision where a pixel under a 1 bit was set. -/
theorem collision_blitBits (x y : Byte) (row : Nat) (bits : Byte) : ∀ (m : Nat) (_ : m ≤ 8) (p : Plane × Bool),
   (((List.range m).foldl (blitBit x y row bits) p).2 = true ↔
     p.2 = true ∨ ∃ col < m, bits.getLsbD (7-col) = true ∧ pixelAt p.1 (wrapRow y row) (wrapCol x col) = true)
  | 0, _, p => by simp
  | m+1, hm, p => by
    rw [List.range_succ, List.foldl_append]
    have ih := collision_blitBits x y row bits m (by omega) p
    have ip := pixelAt_blitBits x y row bits (wrapRow y row) (wrapCol x m) m (by omega) p
    simp only [List.foldl_cons, List.foldl_nil]
    rw [collision_blitBit]
    generalize hq : (List.range m).foldl (blitBit x y row bits) p = q at ih ip
    have same : pixelAt q.1 (wrapRow y row) (wrapCol x m) = pixelAt p.1 (wrapRow y row) (wrapCol x m) := by
      by_contra hne
      obtain ⟨_, col, h1, h2, _⟩ := ip.1 hne
      simp [wrapCol] at h2; omega
    rw [same, Bool.or_eq_true, ih, Bool.and_eq_true]
    constructor
    · rintro ((h | ⟨col, h1, h2⟩) | h)
      · exact .inl h
      · exact .inr ⟨col, by omega, h2⟩
      · exact .inr ⟨m, by omega, h⟩
    · rintro (h | ⟨col, h1, h2⟩)
      · exact .inl (.inl h)
      · rcases Nat.lt_succ_iff_lt_or_eq.1 h1 with h | rfl
        · exact .inl (.inr ⟨col, h, h2⟩)
        · exact .inr h2

/-- Rows of a sprite toggle exactly the pixels they cover, and report a collision where one of these was set. At most 15
rows never wrap onto each other. -/
theorem blitRows_spec (x y : Byte) : ∀ (bits : List Byte) (row : Nat) (_ : bits.length ≤ 15) (p : Plane × Bool),
   (∀ r c, pixelAt (blitRows x y row bits p).1 r c ≠ pixelAt p.1 r c ↔ CoveredBy x y row bits r c) ∧
   ((blitRows x y row bits p).2 = true ↔ p.2 = true ∨ ∃ r c, CoveredBy x y row bits r c ∧ pixelAt p.1 r c = true)
  | [], row, _, p => by simp [blitRows, CoveredBy]
  | b :: bs, row, hl, p => by
    simp only [List.length_cons] at hl
    obtain ⟨i1, i2⟩ := blitRows_spec x y bs (row+1) (by omega) (blitRow x y row b p)
    have fp := fun r c => pixelAt_blitBits x y row b r c 8 (by omega) p
    have fc := collision_blitBits x y row b 8 (by omega) p
    rw [blitRows]
    have split : ∀ r c, CoveredBy x y row (b::bs) r c ↔
        ((y.toNat + row) % 32 = r.val ∧ ∃ col < 8, (x.toNat + col) % 64 = c.val ∧ b.getLsbD (7 - col) = true) ∨ CoveredBy x y (row+1) bs r c := by
      intro r c
      constructor
      · rintro ⟨k, col, h1, h2, h3, h4, h5⟩
        cases k with
        | zero => exact .inl ⟨h3, col, h2, h4, by simpa using h5⟩
        | succ k => exact .inr ⟨k, col, by simp at h1; omega, h2,
            by rw [show row+1+k = row+(k+1) by omega]; exact h3, h4, by simpa using h5⟩
      · rintro (⟨h1, col, h2, h3, h4⟩ | ⟨k, col, h1, h2, h3, h4, h5⟩)
        · exact ⟨0, col, by simp, h2, h1, h3, by simpa using h4⟩
        · exact ⟨k+1, col, by simp; omega, h2, by rw [show row+(k+1) = row+1+k by omega]; exact h3, h4, by simpa using h5⟩
    have disj : ∀ r c, CoveredBy x y (row+1) bs r c → (y.toNat + row) % 32 ≠ r.val := by
      rintro r c ⟨k, col, h1, _, h3, _⟩; omega
    constructor
    · intro r c
      rw [split]
      have a := i1 r c
      have bb := fp r c
      change pixelAt (blitRow x y row b p).1 r c ≠ _ ↔ _ at bb
      constructor
      · intro h
        by_cases hh : pixelAt (blitRow x y row b p).1 r c = pixelAt p.1 r c
        · exact .inr (a.1 (by rw [hh]; exact h))
        · exact .inl (bb.1 hh)
      · rintro (h | h)
        · have n : ¬ CoveredBy x y (row+1) bs r c := fun hc => disj r c hc h.1
          have e : pixelAt (blitRows x y (row+1) bs (blitRow x y row b p)).1 r c = pixelAt (blitRow x y row b p).1 r c := by
            by_contra hne; exact n (a.1 hne)
          rw [e]; exact bb.2 h
        · have e : pixelAt (blitRow x y row b p).1 r c = pixelAt p.1 r c := by
            by_contra hne; exact disj r c h (bb.1 hne).1
          rw [← e]; exact a.2 h
    · rw [i2]
      change (((List.range 8).foldl (blitBit x y row b) p).2 = true ∨ _) ↔ _
      rw [fc]
      constructor
      · rintro ((h | ⟨col, h1, h2, h3⟩) | ⟨r, c, h1, h2⟩)
        · exact .inl h
        · exact .inr ⟨_, _, (split _ _).2 (.inl ⟨rfl, col, h1, rfl, h2⟩), h3⟩
        · refine .inr ⟨r, c, (split r c).2 (.inr h1), ?_⟩
          have e : pixelAt (blitRow x y row b p).1 r c = pixelAt p.1 r c := by
            by_contra hne; exact disj r c h1 ((fp r c).1 hne).1
          rw [← e]; exact h2
      · rintro (h | ⟨r, c, h1, h2⟩)
        · exact .inl (.inl h)
        · rcases (split r c).1 h1 with ⟨g1, col, g2, g3, g4⟩ | h
          · refine .inl (.inr ⟨col, g2, g4, ?_⟩)
            have er : wrapRow y row = r := Fin.ext g1
            have ec : wrapCol x col = c := Fin.ext g3
            rw [er, ec]; exact h2
          · right
            refine ⟨r, c, h, ?_⟩
            have e : pixelAt (blitRow x y row b p).1 r c = pixelAt p.1 r c := by
              by_contra hne; exact disj r c h ((fp r c).1 hne).1
            rw [e]; exact h2

/-- DrawSprite (46_display.md R272, R273): exactly the covered pixels are toggled, and a collision is reported exactly where a
covered pixel was set. -/
theorem drawSprite_spec (x y : Byte) (bits : List Byte) (hl : bits.length ≤ 15) (d : Plane) :
    (∀ r c, pixelAt (drawSprite x y bits d).1 r c ≠ pixelAt d r c ↔ CoveredBy x y 0 bits r c) ∧
    ((drawSprite x y bits d).2 = true ↔ ∃ r c, CoveredBy x y 0 bits r c ∧ pixelAt d r c = true) := by
  obtain ⟨h1, h2⟩ := blitRows_spec x y bits 0 hl (d, false)
  exact ⟨h1, by simpa [drawSprite] using h2⟩

end Sys2Proof.Machine
end

