-- ==== Sys2Proof/Laws/Regs.lean ====
section
/-! SUPPORT. The laws of the register file, the flag writes and the keyboard wait. -/

namespace Sys2Proof.Machine

theorem nibble_lt (x : Nibble) : x.toNat < 16 := x.isLt

theorem setReg_same (v : Regs) (x : Nibble) (b : Byte) : (setReg v x b)[x.toNat]'(x.isLt) = b := by
  simp [setReg]

theorem setReg_ne (v : Regs) {x y : Nibble} (b : Byte) (h : y ≠ x) :
    (setReg v x b)[y.toNat]'(y.isLt) = v[y.toNat]'(y.isLt) := by
  have : x.toNat ≠ y.toNat := fun e => h (BitVec.eq_of_toNat_eq e.symm)
  simp [setReg, this]

theorem getElem_setReg (v : Regs) (x y : Nibble) (b : Byte) :
    (setReg v x b)[y.toNat]'(y.isLt) = if y = x then b else v[y.toNat]'(y.isLt) := by
  split
  · next e => subst e; exact setReg_same v y b
  · next e => exact setReg_ne v b e

/-- Reading a register of a state whose registers are those of `setReg`. -/
theorem getV_of_setReg {s : State} {v : Regs} {x : Nibble} {b : Byte} (h : s.v = setReg v x b) (y : Nibble) :
    s.getV y = if y = x then b else v[y.toNat]'(y.isLt) := by
  simp only [State.getV, h]
  exact getElem_setReg v x y b

theorem getV_setV (s : State) (x y : Nibble) (b : Byte) :
    (s.setV x b).getV y = if y = x then b else s.getV y :=
  getV_of_setReg (State.setV_v s x b) y

/-- R181's two orders of the writes to VX and VF, which the definition of `writeRFRegs` puts as one case split. -/
theorem writeRFRegs_eq_two_writes (o : FlagOrder) (x : Nibble) (r f : Byte) (v : Regs) :
    writeRFRegs o x r f v =
      match o with
      | .flagLast => setReg (setReg v x r) 0xF#4 f
      | .resultLast => setReg (setReg v 0xF#4 f) x r := by
  unfold writeRFRegs
  split
  · next h => subst h; cases o <;> simp [vfChoice, setReg]
  · next h =>
    cases o
    · rfl
    · have : x.toNat ≠ 15 := fun e => h (BitVec.eq_of_toNat_eq e)
      simp [setReg, Vector.set_comm _ _ this]

/-- The register file after WriteRF, register by register. -/
theorem getElem_writeRFRegs (o : FlagOrder) (x y : Nibble) (r f : Byte) (v : Regs) :
    (writeRFRegs o x r f v)[y.toNat]'(y.isLt) =
      if y = 0xF#4 then (if x = 0xF#4 then vfChoice o r f else f)
      else if y = x then r else v[y.toNat]'(y.isLt) := by
  unfold writeRFRegs
  split
  · next hx =>
    subst hx
    rw [getElem_setReg]
    split <;> rfl
  · next hx => rw [getElem_setReg, getElem_setReg]

theorem getV_writeRF (s : State) (x y : Nibble) (r f : Byte) :
    (s.writeRF x r f).getV y =
      if y = 0xF#4 then (if x = 0xF#4 then vfChoice Config.flagOrder r f else f)
      else if y = x then r else s.getV y :=
  getElem_writeRFRegs _ _ _ _ _ _

/-- Loading bytes from V[k] on: each register in range takes its byte, the others keep theirs. -/
theorem getElem_loadRegs : ∀ (bs : List Byte) (v : Regs) (k j : Nat) (hj : j < 16),
    (loadRegs v k bs)[j] = if h : k ≤ j ∧ j - k < bs.length then bs[j - k] else v[j]
  | [], v, k, j, hj => by simp [loadRegs]
  | b :: bs, v, k, j, hj => by
    rw [loadRegs, getElem_loadRegs bs _ (k + 1) j hj]
    rcases Nat.lt_trichotomy j k with h | h | h
    · rw [dif_neg (by omega), dif_neg (by omega), Vector.getElem_setIfInBounds, if_neg (by omega)]
    · subst h
      rw [dif_neg (by omega), dif_pos (by simp), Vector.getElem_setIfInBounds, if_pos rfl]
      simp
    · have e : j - k = (j - (k + 1)) + 1 := by omega
      by_cases h2 : j - (k + 1) < bs.length
      · rw [dif_pos ⟨by omega, h2⟩, dif_pos ⟨by omega, by simp; omega⟩]
        simp [e]
      · rw [dif_neg (by omega), dif_neg (by simp; omega), Vector.getElem_setIfInBounds, if_neg (by omega)]

@[simp] theorem length_regsUpTo (v : Regs) (x : Nibble) : (regsUpTo v x).length = x.toNat + 1 := by
  have := nibble_lt x
  simp [regsUpTo]; omega

theorem getElem_regsUpTo (v : Regs) (x : Nibble) (k : Nat) (hk : k < (regsUpTo v x).length) :
    (regsUpTo v x)[k] = v[k]'(by have := nibble_lt x; simp at hk; omega) := by
  simp [regsUpTo]

/-- The first true: it is true, and everything before it is false. -/
theorem firstTrue_eq_some : ∀ (l : List Bool) (k n : Nat),
    firstTrue k l = some n ↔ k ≤ n ∧ l[n - k]? = some true ∧ ∀ j, k ≤ j → j < n → l[j - k]? = some false
  | [], k, n => by simp [firstTrue]
  | true :: l, k, n => by
    simp only [firstTrue, if_true, Option.some.injEq]
    constructor
    · rintro rfl
      exact ⟨Nat.le_refl _, by simp, fun j h1 h2 => absurd h2 (by omega)⟩
    · rintro ⟨h1, _, h3⟩
      by_contra h
      have := h3 k (Nat.le_refl _) (by omega)
      simp at this
  | false :: l, k, n => by
    simp only [firstTrue, Bool.false_eq_true, if_false]
    rw [firstTrue_eq_some l (k + 1) n]
    constructor
    · rintro ⟨h1, h2, h3⟩
      refine ⟨by omega, ?_, fun j hj1 hj2 => ?_⟩
      · rw [show n - k = (n - (k + 1)) + 1 by omega]; simpa using h2
      · rcases Nat.eq_or_lt_of_le hj1 with rfl | h
        · simp
        · rw [show j - k = (j - (k + 1)) + 1 by omega]; simpa using h3 j (by omega) hj2
    · rintro ⟨h1, h2, h3⟩
      have hn : k ≠ n := by rintro rfl; simp at h2
      refine ⟨by omega, ?_, fun j hj1 hj2 => ?_⟩
      · rw [show n - k = (n - (k + 1)) + 1 by omega] at h2; simpa using h2
      · have := h3 j (by omega) hj2
        rw [show j - k = (j - (k + 1)) + 1 by omega] at this; simpa using this

/-- No true in the list, no position. -/
theorem firstTrue_eq_none : ∀ (l : List Bool) (k : Nat), (∀ b ∈ l, b = false) → firstTrue k l = none
  | [], _, _ => rfl
  | b :: l, k, h => by
    rw [firstTrue, h b (by simp)]; exact firstTrue_eq_none l _ (fun b hb => h b (by simp [hb]))

/-- No key pressed, no lowest key. -/
theorem lowestKey_eq_none {s : State} (h : ∀ k : Fin 16, s.key[k] = false) : lowestKey s = none := by
  apply firstTrue_eq_none
  intro b hb
  obtain ⟨n, hn, rfl⟩ := List.getElem_of_mem hb
  have := h ⟨n, by simpa using hn⟩
  simpa using this

end Sys2Proof.Machine
end

