-- ==== Sys2Proof/Laws/Scheduler.lean ====
section
/-! SUPPORT. What the scheduler's operations can do, said once: the timer loop's frame, the accounting, the end of a cycle,
and the cases of a cycle. -/

namespace Sys2Proof.Machine

/-- The timer loop writes acc, DT, ST and the events, and nothing else. -/
theorem timerLoop_frame : ∀ (n : Nat) (s : State), timerLoop n s =
    { s with acc := (timerLoop n s).acc, dt := (timerLoop n s).dt, st := (timerLoop n s).st,
             events := (timerLoop n s).events }
  | 0, _ => rfl
  | n + 1, s => by
    rw [timerLoop]
    split
    · rw [timerLoop_frame n]; rfl
    · rfl

/-- A timer's decrement is floored at 0 (60_exceptions.md R323). -/
theorem toNat_timerDown (t : Byte) : (timerDown t).toNat = t.toNat - 1 := by
  unfold timerDown
  split
  · next h => subst h; rfl
  · next h => 
    have : t.toNat ≠ 0 := fun e => h (BitVec.eq_of_toNat_eq e)
    have := t.isLt
    simp [BitVec.toNat_sub]; omega

/-- The timer loop in closed form, with fuel enough: acc / F ticks, and one tone where ST reaches 0 within them. -/
theorem timerLoop_closed (f : Nat) (s : State) (hF : 1 ≤ s.clockHz) (hf : s.acc ≤ f) :
   (timerLoop f s).acc = s.acc % s.clockHz ∧ (timerLoop f s).dt.toNat = s.dt.toNat - s.acc / s.clockHz ∧
   (timerLoop f s).st.toNat = s.st.toNat - s.acc / s.clockHz ∧
   (timerLoop f s).events = s.events ++
     (if 1 ≤ s.st.toNat ∧ s.st.toNat ≤ s.acc / s.clockHz then [.tone 1000 50] else []) := by
  induction f generalizing s with
  | zero => 
    have : s.acc = 0 := by omega
    simp [timerLoop, this]; omega
  | succ f ih =>
    rw [timerLoop]
    split
    · next hle =>
      have := ih (tick { s with acc := s.acc - s.clockHz }) hF (by simp; omega)
      obtain ⟨h1, h2, h3, h4⟩ := this
      have e1 : s.acc % s.clockHz = (s.acc - s.clockHz) % s.clockHz := Nat.mod_eq_sub_mod hle
      have e2 : s.acc / s.clockHz = (s.acc - s.clockHz) / s.clockHz + 1 := Nat.div_eq_sub_div (by omega) hle
      refine ⟨?_, ?_, ?_, ?_⟩
      · rw [h1, e1]; rfl
      · rw [h2, e2]; simp [toNat_timerDown]; omega
      · rw [h3, e2]; simp [toNat_timerDown]; omega
      · rw [h4, e2]; simp only [tick_events, tick_st, toNat_timerDown, tick_acc, tick_clockHz]
        have : s.st = 1#8 ↔ s.st.toNat = 1 := by rw [← BitVec.toNat_inj]; rfl
        simp only [this]
        generalize (s.acc - s.clockHz) / s.clockHz = q
        by_cases ha : s.st.toNat = 1
        · rw [if_pos ha, if_neg (by omega), if_pos (by omega)]; simp
        · rw [if_neg ha]
          by_cases hb : 1 ≤ s.st.toNat - 1 ∧ s.st.toNat - 1 ≤ q
          · rw [if_pos hb, if_pos (by omega)]
          · rw [if_neg hb, if_neg (by omega)]
    · next hle =>
      have : s.acc / s.clockHz = 0 := Nat.div_eq_of_lt (by omega)
      rw [this, Nat.mod_eq_of_lt (by omega), if_neg (by omega)]; simp

/-- TimerAccount with a CLOCK_HZ that the host may set is the loop on acc + 60. -/
theorem timerAccount_of_pos {s : State} (h : 1 ≤ s.clockHz) :
    timerAccount s = .next (timerLoop (s.acc + 60) { s with acc := s.acc + 60 }) :=
  if_neg (by omega)

/-- If the accounting answers a next state, CLOCK_HZ is positive and the state is the loop's. -/
theorem timerAccount_next {s t : State} (h : timerAccount s = .next t) :
    1 ≤ s.clockHz ∧ t = timerLoop (s.acc + 60) { s with acc := s.acc + 60 } := by
  unfold timerAccount at h
  split at h
  · cases h
  · cases h; exact ⟨by omega, rfl⟩

/-- What the accounting leaves unchanged. -/
theorem timerAccount_frame {s t : State} (h : timerAccount s = .next t) :
    t = { s with acc := t.acc, dt := t.dt, st := t.st, events := t.events } := by
  obtain ⟨-, rfl⟩ := timerAccount_next h
  rw [timerLoop_frame]

/-- If a cycle's end answers a next state, execute answered one: a halted one is the end, another is accounted. -/
theorem finishCycle_next {o : Host.Outcome State Fault Refusal} {t : State} (h : finishCycle o = .next t) :
    ∃ u, o = .next u ∧ (u.halted = true ∧ t = u ∨ u.halted = false ∧ timerAccount u = .next t) := by
  cases o with
  | next u =>
    refine ⟨u, rfl, ?_⟩
    simp only [finishCycle] at h
    split at h
    · next hu => cases h; exact .inl ⟨hu, rfl⟩
    · next hu => exact .inr ⟨by simpa using hu, h⟩
  | fault r => cases h
  | refused r => cases h

/-- The cases of a cycle that answers a next state: the fetch faulted; or a word was fetched and executed, and the result is
halted, or was accounted. -/
theorem cycle_cases {s t : State} (h : cycle s = .next t) :
    (0xFFE < s.pc.toNat ∧ t = raiseFault .fetchOob s.pc.toNat s) ∨
    (s.pc.toNat ≤ 0xFFE ∧ ∃ u, execWord (fetch16 s) { s with opcode := fetch16 s } = .next u ∧
      (u.halted = true ∧ t = u ∨ u.halted = false ∧ timerAccount u = .next t)) := by
  unfold cycle at h
  split at h
  · next hf => exact .inr ⟨by simpa [fetchCheck] using hf, finishCycle_next h⟩
  · next hf => cases h; exact .inl ⟨by simpa [fetchCheck] using hf, rfl⟩

/-- If the scheduler's turn answers a next state, the core is not halted, and it waited or performed a cycle. -/
theorem step_cases {s t : State} (h : step s = .next t) :
    s.halted = false ∧ (s.runMode = .paused ∧ t = s ∨ s.runMode = .running ∧ cycle s = .next t) := by
  unfold step schedule at h
  split at h
  · cases h
  · next hh =>
    refine ⟨by simpa using hh, ?_⟩
    split at h
    · next hr => cases h; exact .inl ⟨hr, rfl⟩
    · next hr => exact .inr ⟨hr, h⟩

/-- The turn of a running core that is not halted is a cycle. -/
theorem step_of_running {s : State} (h : s.halted = false) (hr : s.runMode = .running) : step s = cycle s := by
  simp [step, schedule, h, hr]

end Sys2Proof.Machine
end

