-- ==== Sys2Proof/Tests/Slice0.lean ====
section
/-! SUPPORT. Tests of the model. Expected results come from 95_test_vectors.md, whose row is named in each comment, or from
the rule named there. The `test_witness_` theorems show, for each obligation with premises, states and operands that meet all
of them together, at the ends of the ranges its clauses name. -/

namespace Sys2Proof.Tests

open Sys2Proof.Machine Sys2Proof.Claims

/-! ## Helpers -/

/-- The outcome is a next state that p accepts. -/
def answers (o : Host.Outcome State Fault Refusal) (p : State → Bool) : Bool :=
  match o with
  | .next t => p t
  | .fault _ => false
  | .refused _ => false

/-- What `answers` says of an outcome. -/
theorem next_of_answers {o : Host.Outcome State Fault Refusal} {p : State → Bool} (h : answers o p = true) :
    ∃ t, o = .next t ∧ p t = true := by
  cases o with
  | next t => exact ⟨t, rfl, h⟩
  | fault r => simp [answers] at h
  | refused r => simp [answers] at h

/-- The word w decodes to i. -/
def decodesTo (w : Word) (i : Instr) : Bool :=
  match decode w with
  | .ok j => i == j
  | .error _ => false

/-- The word w decodes to i, and i is encoded as w. -/
def codes (w : Word) (i : Instr) : Bool := decodesTo w i && encode i == w

/-- The word w is unknown, of the kind u. -/
def unknown (w : Word) (u : Unknown) : Bool :=
  match decode w with
  | .ok _ => false
  | .error e => e == u

/-- The state the test vectors start from (95_test_vectors.md section 0): initialize's, RUNNING. -/
def base : State := { State.reset with runMode := .running }

/-- The state with some registers set. -/
def regs (l : List (Nibble × Byte)) (s : State) : State := l.foldl (fun s p => s.setV p.1 p.2) s

/-- The state with bytes stored at address a. -/
def bytes (a : Nat) (l : List Byte) (s : State) : State := { s with mem := writeBytes s.mem a l }

/-- One step with the word w at pc. -/
def run (w : Nat) (s : State) (p : State → Bool) : Bool := answers (step (s.withFetchWord 16 w)) p

/-- The state halted with this record. -/
def faulted (t : State) (c : Cause) (pc : Word) (info : Nat) : Bool :=
  t.halted && t.fault == ⟨c, pc, info⟩ && t.events == [.fault c pc info]

/-- The bytes at a, a + 1, ... -/
def holds (t : State) (a : Nat) (l : List Byte) : Bool := readBytes t.mem a l.length == l

/-- The keys with the given ones pressed. -/
def keys (l : List (Fin 16)) : Vector Bool 16 := Vector.ofFn fun k => l.contains k

/-! ## WellFormed smoke test (30_encoding.md R95) -/

theorem test_wf_sys_0E0_refused : (Instr.sys 0x0E0#12).wellFormed = false := by decide
theorem test_wf_sys_0EE_refused : (Instr.sys 0x0EE#12).wellFormed = false := by decide
theorem test_wf_sys_neighbours :
    ([0x0DF#12, 0x0E1#12, 0x0ED#12, 0x0EF#12, 0x1E0#12, 0x000#12, 0xFFF#12].all
      fun n => (Instr.sys n).wellFormed) = true := by decide

/-! ## Decode and encode: a word of every constructor, written out from the patterns of R94 -/

/-- Classes 0 to 3, 6, 7, A, B, C: 00E0, 00EE, 0NNN, 1NNN, ... -/
theorem test_decode_classes_0_to_4 :
    codes 0b0000_0000_1110_0000#16 .cls ∧ codes 0b0000_0000_1110_1110#16 .ret ∧
    codes 0b0000_0001_0010_0011#16 (.sys 0x123#12) ∧ codes 0b0001_0010_0011_0100#16 (.jp 0x234#12) ∧
    codes 0b0010_0010_0001_0000#16 (.call 0x210#12) ∧ codes 0b0011_0011_0100_0010#16 (.seImm 3#4 0x42#8) ∧
    codes 0b0100_0011_0100_0010#16 (.sneImm 3#4 0x42#8) := by decide
theorem test_decode_classes_5_to_7_9 :
    codes 0b0101_0001_0010_0000#16 (.seReg 1#4 2#4) ∧ codes 0b0110_1010_0010_1111#16 (.ldImm 0xA#4 0x2F#8) ∧
    codes 0b0111_0001_1111_1111#16 (.addImm 1#4 0xFF#8) ∧ codes 0b1001_0001_0010_0000#16 (.sneReg 1#4 2#4) := by decide
theorem test_decode_class_8 :
    codes 0b1000_0001_0010_0000#16 (.ldReg 1#4 2#4) ∧ codes 0b1000_0001_0010_0001#16 (.orReg 1#4 2#4) ∧
    codes 0b1000_0001_0010_0010#16 (.andReg 1#4 2#4) ∧ codes 0b1000_0001_0010_0011#16 (.xorReg 1#4 2#4) ∧
    codes 0b1000_0001_0010_0100#16 (.addReg 1#4 2#4) ∧ codes 0b1000_0001_0010_0101#16 (.sub 1#4 2#4) ∧
    codes 0b1000_0001_0010_0110#16 (.shr 1#4 2#4) ∧ codes 0b1000_0001_0010_0111#16 (.subn 1#4 2#4) ∧
    codes 0b1000_0001_0010_1110#16 (.shl 1#4 2#4) := by decide
theorem test_decode_classes_A_to_E :
    codes 0b1010_0011_0000_0000#16 (.ldI 0x300#12) ∧ codes 0b1011_0011_0001_0000#16 (.jpV0 0x310#12) ∧
    codes 0b1100_0011_0000_1111#16 (.rnd 3#4 0x0F#8) ∧ codes 0b1101_0001_0010_0101#16 (.drw 1#4 2#4 5#4) ∧
    codes 0b1110_0101_1001_1110#16 (.skp 5#4) ∧ codes 0b1110_0101_1010_0001#16 (.sknp 5#4) := by decide
theorem test_decode_class_F :
    codes 0b1111_0001_0000_0111#16 (.ldVDt 1#4) ∧ codes 0b1111_0100_0000_1010#16 (.ldVK 4#4) ∧
    codes 0b1111_0010_0001_0101#16 (.ldDtV 2#4) ∧ codes 0b1111_0010_0001_1000#16 (.ldStV 2#4) ∧
    codes 0b1111_0010_0001_1110#16 (.addI 2#4) ∧ codes 0b1111_0100_0010_1001#16 (.ldF 4#4) ∧
    codes 0b1111_0011_0011_0011#16 (.ldB 3#4) ∧ codes 0b1111_0010_0101_0101#16 (.ldMemV 2#4) ∧
    codes 0b1111_0010_0110_0101#16 (.ldVMem 2#4) := by decide
/-- R99: classes 5 and 9 ignore the low nibble; T5, T6. -/
theorem test_decode_ignored_nibble :
    decodesTo 0x5121#16 (.seReg 1#4 2#4) ∧ decodesTo 0x912F#16 (.sneReg 1#4 2#4) := by decide
/-- R100: the ends of each kind of unknown word; T1, T2, T3. -/
theorem test_decode_unknown :
    unknown 0x8AB8#16 (.group8 8#4) ∧ unknown 0x8AB9#16 (.group8 9#4) ∧ unknown 0x8ABD#16 (.group8 0xD#4) ∧
    unknown 0x8ABF#16 (.group8 0xF#4) ∧
    unknown 0xE1A2#16 (.groupE 0xA2#8) ∧ unknown 0xE19F#16 (.groupE 0x9F#8) ∧ unknown 0xF0FF#16 (.groupF 0xFF#8) ∧
    unknown 0xF000#16 (.groupF 0#8) ∧ unknown 0xF166#16 (.groupF 0x66#8) := by decide
/-- The numbering of spec/opcode_table.json: op[15:0] is bits 15..0. -/
theorem test_decode_table_word :
    decodeTableWord 16 0xD125 = some (.drw 1#4 2#4 5#4) ∧ decodeTableWord 16 0x8008 = none := by decide

/-! ## Fetch, step, scheduler -/

/-- S13. -/
theorem test_step_unknown_opcode : run 0xE1FF { base with pc := 0x300#16 } (fun t =>
    t.events == [.unknownOpcode 0x300#16 0xE1FF#16] && t.pc == 0x302#16 && t.acc == 60) = true := by decide
/-- T7. -/
theorem test_step_fetch_oob : answers (step { base with pc := 0xFFF#16, opcode := 0x1234#16 }) (fun t =>
    faulted t .fetchOob 0xFFF#16 0xFFF && t.opcode == 0x1234#16 && t.pc == 0xFFF#16 && t.acc == 0) = true := by decide
/-- T8. -/
theorem test_step_last_fetch : run 0x1200 { base with pc := 0xFFE#16 } (fun t =>
    t.pc == 0x200#16 && t.opcode == 0x1200#16 && !t.halted) = true := by decide
/-- T9. -/
theorem test_step_odd_pc : run 0x6A2F { base with pc := 0x201#16 } (fun t =>
    t.getV 0xA#4 == 0x2F#8 && t.pc == 0x203#16) = true := by decide
/-- T11: paused at power-up (R356), the turn leaves the state. -/
theorem test_step_paused : answers (step State.reset) (fun t => t == State.reset) = true := by decide
/-- T12. -/
theorem test_single_step_halted :
    answers (hostOp .singleStep { State.reset with halted := true })
      (fun t => t == { State.reset with halted := true }) = true := by decide
/-- TA10. -/
theorem test_single_step_paused :
    answers (hostOp .singleStep { State.reset with clockHz := 60, dt := 9#8 }) (fun t =>
      t.dt == 8#8 && t.runMode == .paused && t.pc == 0x202#16) = true := by decide

/-! ## Timers -/

/-- TA2, TA3: 60 ticks in one step, floored at 0, one tone. -/
theorem test_timer_sixty_ticks :
    answers (timerAccount { base with clockHz := 1, dt := 100#8, st := 50#8 }) (fun t =>
      t.dt == 40#8 && t.st == 0#8 && t.acc == 0 && t.events == [.tone 1000 50]) = true := by
  decide +kernel
/-- TA4, third step: the remainder carries. -/
theorem test_timer_carries :
    answers (timerAccount { base with clockHz := 61, dt := 8#8, acc := 59 }) (fun t =>
      t.dt == 7#8 && t.acc == 58) = true := by decide
/-- TA7: after SET_CLOCK(60), acc = 120 gives three ticks. -/
theorem test_timer_after_set_clock :
    answers (hostOp (.setClock 60) { base with acc := 120, dt := 9#8 }) (fun s =>
      answers (timerAccount s) fun t => t.dt == 6#8 && t.acc == 0) = true := by decide
/-- TA8: a faulting step accounts nothing. -/
theorem test_timer_faulting_step :
    answers (step { base with clockHz := 600, acc := 540, dt := 9#8, pc := 0xFFF#16 }) (fun t =>
      t.halted && t.acc == 540 && t.dt == 9#8) = true := by decide
/-- S9: the tenth step at 600 Hz. -/
theorem test_timer_tenth_step :
    run 0x0000 { base with clockHz := 600, acc := 540, dt := 5#8 } (fun t => t.dt == 4#8 && t.acc == 0) = true := by decide

/-! ## Control transfer -/

/-- T4. -/
theorem test_sys : run 0x01E0 base (fun t => t.pc == 0x202#16 && t.events == [] && !t.drawFlag) = true := by decide
/-- CF1. -/
theorem test_jp : run 0x1234 base (fun t => t.pc == 0x234#16) = true := by decide
/-- CF4. -/
theorem test_call_last_entry : run 0x2300 { base with sp := 15 } (fun t =>
    t.stack[15] == 0x202#16 && t.sp.val == 16 && t.pc == 0x300#16) = true := by decide
/-- CF5. -/
theorem test_call_overflow : run 0x2300 { base with sp := 16 } (fun t =>
    faulted t .stackOverflow 0x200#16 16 && t.sp.val == 16 && t.pc == 0x200#16) = true := by decide
/-- CF6. -/
theorem test_ret : run 0x00EE { base with sp := 1, stack := base.stack.set 0 0x206#16 } (fun t =>
    t.sp.val == 0 && t.pc == 0x206#16 && t.stack[0] == 0x206#16) = true := by decide
/-- CF7. -/
theorem test_ret_underflow : run 0x00EE base (fun t =>
    faulted t .stackUnderflow 0x200#16 0 && t.pc == 0x200#16 && t.acc == 0 && t.opcode == 0x00EE#16) = true := by decide
/-- CF10. -/
theorem test_jpV0_largest : run 0xBFFF (regs [(0#4, 0xFF#8)] base) (fun t => t.pc == 0x10FE#16) = true := by decide
/-- CF11. -/
theorem test_jpV0_always_v0 : run 0xB310 (regs [(0#4, 5#8), (3#4, 9#8)] base) (fun t => t.pc == 0x315#16) = true := by decide

/-! ## Skips -/

/-- S5. -/
theorem test_seImm_equal : run 0x3342 (regs [(3#4, 0x42#8)] base) (fun t => t.pc == 0x204#16) = true := by decide
/-- S6. -/
theorem test_seImm_differs : run 0x3342 (regs [(3#4, 0x41#8)] base) (fun t => t.pc == 0x202#16) = true := by decide
/-- SK1. -/
theorem test_sneImm_differs : run 0x4342 (regs [(3#4, 0x41#8)] base) (fun t => t.pc == 0x204#16) = true := by decide
/-- SK2. -/
theorem test_sneImm_equal : run 0x4342 (regs [(3#4, 0x42#8)] base) (fun t => t.pc == 0x202#16) = true := by decide
/-- SK3. -/
theorem test_seReg_equal : run 0x5120 (regs [(1#4, 7#8), (2#4, 7#8)] base) (fun t => t.pc == 0x204#16) = true := by decide
/-- SK4. -/
theorem test_seReg_differs : run 0x5120 (regs [(1#4, 7#8), (2#4, 8#8)] base) (fun t => t.pc == 0x202#16) = true := by decide
/-- SK6. -/
theorem test_sneReg_differs : run 0x9120 (regs [(1#4, 7#8), (2#4, 8#8)] base) (fun t => t.pc == 0x204#16) = true := by decide
/-- SK7. -/
theorem test_sneReg_same : run 0x9110 base (fun t => t.pc == 0x202#16) = true := by decide
/-- SK8. -/
theorem test_skp_pressed : run 0xE59E { regs [(5#4, 0xA#8)] base with key := keys [0xA] } (fun t =>
    t.pc == 0x204#16) = true := by decide
/-- SK12. -/
theorem test_skp_index : run 0xE59E (regs [(5#4, 0x10#8)] base) (fun t =>
    faulted t .keyIndex 0x200#16 0x10 && t.pc == 0x200#16) = true := by decide
/-- SK10. -/
theorem test_sknp_released : run 0xE5A1 (regs [(5#4, 0xA#8)] base) (fun t => t.pc == 0x204#16) = true := by decide
/-- SK13. -/
theorem test_sknp_index : run 0xE5A1 (regs [(5#4, 0xFF#8)] base) (fun t =>
    faulted t .keyIndex 0x200#16 0xFF) = true := by decide

/-! ## Loads, arithmetic and logic -/

/-- A1. -/
theorem test_ldImm : run 0x6A2F base (fun t => t.getV 0xA#4 == 0x2F#8 && t.pc == 0x202#16) = true := by decide
/-- S1. -/
theorem test_addImm_wraps : run 0x7302 (regs [(3#4, 0xFF#8)] base) (fun t =>
    t.getV 3#4 == 1#8 && t.getV 0xF#4 == 0#8 && t.pc == 0x202#16) = true := by decide
/-- A3. -/
theorem test_addImm_vf : run 0x7F01 (regs [(0xF#4, 0xFF#8)] base) (fun t => t.getV 0xF#4 == 0#8) = true := by decide
/-- A4. -/
theorem test_ldReg : run 0x8120 (regs [(2#4, 0x11#8)] base) (fun t =>
    t.getV 1#4 == 0x11#8 && t.getV 2#4 == 0x11#8) = true := by decide
/-- A5. -/
theorem test_or : run 0x8121 (regs [(1#4, 0x0F#8), (2#4, 0xF0#8), (0xF#4, 0x77#8)] base) (fun t =>
    t.getV 1#4 == 0xFF#8 && t.getV 0xF#4 == 0x77#8) = true := by decide
/-- A6. -/
theorem test_and : run 0x8122 (regs [(1#4, 0x3C#8), (2#4, 0x0F#8), (0xF#4, 0x77#8)] base) (fun t =>
    t.getV 1#4 == 0x0C#8 && t.getV 0xF#4 == 0x77#8) = true := by decide
/-- A7. -/
theorem test_xor : run 0x8123 (regs [(1#4, 0x3C#8), (2#4, 0x0F#8), (0xF#4, 0x77#8)] base) (fun t =>
    t.getV 1#4 == 0x33#8 && t.getV 0xF#4 == 0x77#8) = true := by decide
/-- S2. -/
theorem test_addReg_carry : run 0x8124 (regs [(1#4, 0xFF#8), (2#4, 1#8)] base) (fun t =>
    t.getV 1#4 == 0#8 && t.getV 0xF#4 == 1#8) = true := by decide
/-- A22: Y = F reads the old VF. -/
theorem test_addReg_y_is_vf : run 0x81F4 (regs [(1#4, 1#8), (0xF#4, 0xFF#8)] base) (fun t =>
    t.getV 1#4 == 0#8 && t.getV 0xF#4 == 1#8) = true := by decide
/-- S3. -/
theorem test_sub_borrow : run 0x8125 (regs [(1#4, 1#8), (2#4, 2#8)] base) (fun t =>
    t.getV 1#4 == 0xFF#8 && t.getV 0xF#4 == 0#8) = true := by decide
/-- A12. -/
theorem test_sub_equal : run 0x8125 (regs [(1#4, 5#8), (2#4, 5#8)] base) (fun t =>
    t.getV 1#4 == 0#8 && t.getV 0xF#4 == 1#8) = true := by decide
/-- S4. -/
theorem test_shr : run 0x8106 (regs [(1#4, 3#8)] base) (fun t =>
    t.getV 1#4 == 1#8 && t.getV 0xF#4 == 1#8) = true := by decide
/-- A15: VY is not read. -/
theorem test_shr_ignores_vy : run 0x8126 (regs [(1#4, 1#8), (2#4, 0xFF#8)] base) (fun t =>
    t.getV 1#4 == 0#8 && t.getV 2#4 == 0xFF#8 && t.getV 0xF#4 == 1#8) = true := by decide
/-- A16. -/
theorem test_subn : run 0x8127 (regs [(1#4, 2#8), (2#4, 5#8)] base) (fun t =>
    t.getV 1#4 == 3#8 && t.getV 0xF#4 == 1#8) = true := by decide
/-- A18. -/
theorem test_subn_borrow : run 0x8127 (regs [(1#4, 2#8), (2#4, 1#8)] base) (fun t =>
    t.getV 1#4 == 0xFF#8 && t.getV 0xF#4 == 0#8) = true := by decide
/-- A19. -/
theorem test_shl : run 0x810E (regs [(1#4, 0x81#8)] base) (fun t =>
    t.getV 1#4 == 2#8 && t.getV 0xF#4 == 1#8) = true := by decide
/-- A20. -/
theorem test_shl_no_carry : run 0x810E (regs [(1#4, 0x40#8)] base) (fun t =>
    t.getV 1#4 == 0x80#8 && t.getV 0xF#4 == 0#8) = true := by decide
/-- The draw itself is free: only the register and fields R193 fixes are looked at. -/
theorem test_rnd : run 0xC300 base (fun t => t.pc == 0x202#16 && t.draws == 1 && t.getV 2#4 == 0#8) = true := by decide

/-- XF1 to XF6: VF where X = F, under each FLAG_ORDER; r and f as the vectors give them. -/
theorem test_flag_order :
    [(0x00#8, 1#8), (0x02#8, 1#8), (0x01#8, 0#8), (0x02#8, 1#8), (0x02#8, 1#8), (0x01#8, 1#8)].map
      (fun p => ((writeRFRegs .flagLast 0xF#4 p.1 p.2 base.v)[15], (writeRFRegs .resultLast 0xF#4 p.1 p.2 base.v)[15])) =
    [(0x01#8, 0x00#8), (0x01#8, 0x02#8), (0x00#8, 0x01#8), (0x01#8, 0x02#8), (0x01#8, 0x02#8), (0x01#8, 0x01#8)] := by
  decide

/-! ## Index register and memory -/

/-- M2. -/
theorem test_ldI : run 0xAFFF base (fun t => t.i == 0xFFF#12) = true := by decide
/-- M4. -/
theorem test_addI_top : run 0xF21E (regs [(2#4, 0xF#8), (0xF#4, 9#8)] { base with i := 0xFF0#12 }) (fun t =>
    t.i == 0xFFF#12 && t.getV 0xF#4 == 9#8) = true := by decide
/-- M5. -/
theorem test_addI_oob : run 0xF21E (regs [(2#4, 0x10#8)] { base with i := 0xFF0#12 }) (fun t =>
    faulted t .indexOob 0x200#16 0x1000 && t.i == 0xFF0#12 && t.pc == 0x200#16) = true := by decide
/-- M7. -/
theorem test_ldF : run 0xF429 (regs [(4#4, 0xF#8)] base) (fun t => t.i == 0x04B#12) = true := by decide
/-- M8. -/
theorem test_ldF_index : run 0xF429 (regs [(4#4, 0x10#8)] base) (fun t =>
    faulted t .fontIndex 0x200#16 0x10) = true := by decide
/-- S11. -/
theorem test_ldB : run 0xF033 (regs [(0#4, 0xFE#8)] { base with i := 0x300#12 }) (fun t =>
    holds t 0x300 [2#8, 5#8, 4#8] && t.i == 0x300#12) = true := by decide
/-- M12. -/
theorem test_ldB_oob : run 0xF033 (regs [(0#4, 7#8)] { base with i := 0xFFE#12 }) (fun t =>
    faulted t .memOob 0x200#16 0x1000 && holds t 0xFFE [0#8, 0#8]) = true := by decide
/-- S12. -/
theorem test_ldMemV : run 0xF255 (regs [(0#4, 1#8), (1#4, 2#8), (2#4, 3#8), (3#4, 4#8)] { base with i := 0x400#12 })
    (fun t => holds t 0x400 [1#8, 2#8, 3#8, 0#8] && t.i == 0x400#12) = true := by decide
/-- M15. -/
theorem test_ldMemV_oob : run 0xFF55 (regs [(0#4, 1#8)] { base with i := 0xFF1#12 }) (fun t =>
    faulted t .memOob 0x200#16 0x1000 && holds t 0xFF1 [0#8]) = true := by decide
/-- M16. -/
theorem test_ldVMem : run 0xF265 (bytes 0x300 [2#8, 5#8, 4#8, 9#8] (regs [(3#4, 7#8)] { base with i := 0x300#12 }))
    (fun t => t.getV 0#4 == 2#8 && t.getV 1#4 == 5#8 && t.getV 2#4 == 4#8 && t.getV 3#4 == 7#8 &&
      t.i == 0x300#12) = true := by decide
/-- M18. -/
theorem test_ldVMem_oob : run 0xF165 (regs [(0#4, 7#8)] { base with i := 0xFFF#12 }) (fun t =>
    faulted t .memOob 0x200#16 0x1000 && t.getV 0#4 == 7#8) = true := by decide

/-! ## Timer and keyboard instructions -/

/-- K2: the read comes before the tick. -/
theorem test_ldVDt : run 0xF107 { base with clockHz := 60, dt := 5#8 } (fun t =>
    t.getV 1#4 == 5#8 && t.dt == 4#8) = true := by decide
/-- K4: the write comes before the tick. -/
theorem test_ldDtV : run 0xF015 (regs [(0#4, 3#8)] { base with clockHz := 60 }) (fun t => t.dt == 2#8) = true := by decide
/-- K6. -/
theorem test_ldStV : run 0xF018 (regs [(0#4, 1#8)] { base with clockHz := 60 }) (fun t =>
    t.st == 0#8 && t.events == [.tone 1000 50]) = true := by decide
/-- K7. -/
theorem test_ldVK_lowest : run 0xF40A { base with pc := 0x250#16, key := keys [7, 3] } (fun t =>
    t.getV 4#4 == 3#8 && t.pc == 0x252#16) = true := by decide
/-- K8. -/
theorem test_ldVK_waits : run 0xF40A (regs [(4#4, 9#8)] { base with pc := 0x250#16 }) (fun t =>
    t.getV 4#4 == 9#8 && t.pc == 0x250#16 && t.opcode == 0xF40A#16 && t.acc == 60) = true := by decide

/-! ## Display -/

/-- D1. -/
theorem test_cls : run 0x00E0 (regs [(0xF#4, 5#8)] { base with disp := setPixel blankPlane 31 63 true }) (fun t =>
    !(pixelAt t.disp 31 63) && !(pixelAt t.disp 0 0) && t.drawFlag && t.getV 0xF#4 == 5#8) = true := by decide
/-- D3: one pixel erased, one set, collision. -/
theorem test_drw_collision :
    run 0xD121 (bytes 0x300 [0xC0#8] { base with i := 0x300#12, disp := setPixel blankPlane 0 0 true }) (fun t =>
      !(pixelAt t.disp 0 0) && pixelAt t.disp 0 1 && !(pixelAt t.disp 0 2) && !(pixelAt t.disp 1 0) &&
        t.getV 0xF#4 == 1#8 && t.drawFlag) = true := by decide
/-- S8 and D4 in one: a sprite at column 60, row 31 wraps in both directions. -/
theorem test_drw_wraps :
    run 0xD122 (bytes 0x300 [0xFF#8, 0x08#8] (regs [(1#4, 60#8), (2#4, 31#8)] { base with i := 0x300#12 })) (fun t =>
      [60, 61, 62, 63, 0, 1, 2, 3].all (fun c => pixelAt t.disp 31 c) && !(pixelAt t.disp 31 4) &&
        pixelAt t.disp 0 0 && !(pixelAt t.disp 0 1) && t.getV 0xF#4 == 0#8) = true := by decide

/-! ## The host -/

/-- RS1 and RS4: initialize's values, the font's ends, the run mode kept, a fault cleared. -/
theorem test_reset_op :
    answers (hostOp .reset (raiseFault .memOob 5 (bytes 0 [1#8, 2#8] { base with pc := 7#16, dt := 9#8 }))) (fun t =>
      holds t 0 [0xF0#8, 0x90#8, 0x90#8, 0x90#8, 0xF0#8] && holds t 0x4B [0xF0#8, 0x80#8, 0xF0#8, 0x80#8, 0x80#8, 0#8] &&
        t.pc == 0x200#16 && t.dt == 0#8 && !t.halted && t.fault == ⟨.none, 0#16, 0⟩ && t.runMode == .running) = true := by
  decide
/-- LOAD puts the first byte at 0x200 (R353). -/
theorem test_load :
    answers (hostOp (.load [0xF1#8, 0x0A#8, 0x12#8]) { base with sp := 3 }) (fun t =>
      holds t 0x1FF [0#8, 0xF1#8, 0x0A#8, 0x12#8, 0#8] && t.sp.val == 0 && t.pc == 0x200#16) = true := by decide
/-- R330, R276. -/
theorem test_key_and_draw_flag :
    answers (hostOp (.key 0xC#4 true) base) (fun t => t.key == keys [0xC]) = true ∧
    answers (hostOp .clearDrawFlag { base with drawFlag := true }) (fun t => t == base) = true := by decide
/-- From power-up: LOAD, RESUME, and the first turn runs the ROM's first instruction (R356, R357). -/
theorem test_power_up_run :
    answers (runActions [.host (.load [0x6A#8, 0x2F#8]), .host .resume, .turn] State.reset) (fun t =>
      t.getV 0xA#4 == 0x2F#8 && t.pc == 0x202#16 && t.opcode == 0x6A2F#16) = true := by decide

/-! ## Witnesses: encoding, fetch and the step -/

theorem test_witness_DecodeOfEncodeIsIdentity :
    ∀ i ∈ [Instr.cls, .sys 0xFFF#12, .sys 0#12, .drw 0xF#4 0#4 0xF#4, .ldVMem 0xF#4], i.wellFormed = true := by decide

theorem test_witness_EncodeOfDecodeIsCanonicalWord :
    decode 0x5121#16 = .ok (.seReg 1#4 2#4) ∧ decode 0x9FFF#16 = .ok (.sneReg 0xF#4 0xF#4) ∧
    decode 0xFFFF#16 = .error (.groupF 0xFF#8) ∧ decode 0xF165#16 = .ok (.ldVMem 1#4) := ⟨rfl, rfl, rfl, rfl⟩

/-- One unknown word of each kind, and one known word of each of the three classes. -/
theorem test_witness_UnknownOpcodesAreExactlyThese :
    (0x8AB8#16).toNat / 0x1000 = 8 ∧ (0x8AB8#16).toNat % 16 = 8 ∧ (0xEF9F#16).toNat / 0x1000 = 0xE ∧
    (0xEF9F#16).toNat % 256 ∉ [0x9E, 0xA1] ∧ (0xFF66#16).toNat / 0x1000 = 0xF ∧ (0xFF66#16).toNat % 256 = 0x66 ∧
    decode 0x8ABE#16 = .ok (.shl 0xA#4 0xB#4) ∧ decode 0xEFA1#16 = .ok (.sknp 0xF#4) := by
  exact ⟨by decide, by decide, by decide, by decide, by decide, by decide, rfl, rfl⟩

/-- Words whose fields are 0 and words whose fields are all ones, for each shape of the premises of EncodesNNN, EncodesXKK,
EncodesXY, EncodesX and of DXYN, 00E0, 00EE and 0NNN. -/
theorem test_witness_encoding_premises :
    (∀ c < 16, (BitVec.ofNat 16 (c * 0x1000 + 0xFFF)).toNat = c * 0x1000 + (0xFFF#12).toNat ∧
      (BitVec.ofNat 16 (c * 0x1000)).toNat = c * 0x1000 + (0#12).toNat ∧
      (BitVec.ofNat 16 (c * 0x1000 + 0xFFF)).toNat = c * 0x1000 + (0xF#4).toNat * 0x100 + (0xFF#8).toNat ∧
      (BitVec.ofNat 16 (c * 0x1000 + 0xF07)).toNat = c * 0x1000 + (0xF#4).toNat * 0x100 + 0x07 ∧
      ∀ n < 16, (BitVec.ofNat 16 (c * 0x1000 + 0xF00 + n)).toNat =
        c * 0x1000 + (0xF#4).toNat * 0x100 + (0#4).toNat * 0x10 + n) ∧
    (0xDF0F#16).toNat = 0xD000 + (0xF#4).toNat * 0x100 + (0#4).toNat * 0x10 + (0xF#4).toNat ∧
    (0x00E0#16).toNat = 0x00E0 ∧ (0x00EE#16).toNat = 0x00EE ∧
    (0x0FFF#16).toNat = (0xFFF#12).toNat ∧ 0x0FFF#16 ≠ 0x00E0#16 ∧ 0x0FFF#16 ≠ 0x00EE#16 ∧
    (0x0000#16).toNat = (0#12).toNat := by decide

/-- A running state with the word w at 0x200. -/
def at200 (w : Nat) : State := base.withFetchWord 16 w

theorem test_witness_StepRunsTheDecodedInstruction :
    (at200 0x6A2F).halted = false ∧ (at200 0x6A2F).runMode = .running ∧ (at200 0x6A2F).pc.toNat ≤ 0xFFE ∧
    decode (fetch16 (at200 0x6A2F)) = .ok (.ldImm 0xA#4 0x2F#8) := ⟨by decide, by decide, by decide, rfl⟩

/-- The last legal pc, with an instruction that faults (RET with an empty stack). -/
theorem test_witness_StepRunsTheDecodedInstruction_faulting :
    let s := State.withFetchWord { base with pc := 0xFFE#16 } 16 0x00EE
    s.halted = false ∧ s.runMode = .running ∧ s.pc.toNat = 0xFFE ∧ decode (fetch16 s) = .ok .ret :=
  ⟨by decide, by decide, by decide, rfl⟩

theorem test_witness_UnknownOpcodeIsReportedNoOp :
    (at200 0x8AB8).halted = false ∧ (at200 0x8AB8).runMode = .running ∧ (at200 0x8AB8).pc.toNat ≤ 0xFFE ∧
    decode (fetch16 (at200 0x8AB8)) = .error (.group8 8#4) := ⟨by decide, by decide, by decide, rfl⟩

theorem test_witness_FetchOutOfBoundsFaults :
    ({ base with pc := 0xFFF#16 } : State).halted = false ∧ ({ base with pc := 0xFFF#16 } : State).runMode = .running ∧
    ({ base with pc := 0xFFF#16 } : State).pc.toNat > 0xFFE := by decide

theorem test_witness_HaltedOrPausedCoreTakesNoStep :
    (raiseFault .stackUnderflow 0 base).halted = true ∧ State.reset.halted = false ∧ State.reset.runMode = .paused := by
  decide

/-- The faults before and after the fetch. -/
theorem test_witness_FaultsArePrecise :
    (∃ t, step (at200 0x00EE) = .next t ∧ t.halted = true) ∧ Runs (at200 0x00EE) ∧ (at200 0x00EE).pc.toNat ≤ 0xFFE ∧
    (∃ t, step { base with pc := 0xFFF#16 } = .next t ∧ t.halted = true) ∧ Runs { base with pc := 0xFFF#16 } ∧
    ¬ ({ base with pc := 0xFFF#16 } : State).pc.toNat ≤ 0xFFE :=
  ⟨next_of_answers (p := fun t => t.halted) (by decide), ⟨by decide, by decide, by decide⟩, by decide,
   next_of_answers (p := fun t => t.halted) (by decide), ⟨by decide, by decide, by decide⟩, by decide⟩

/-- Running states whose fault the table gives: each of the seven causes, and none. -/
theorem test_witness_StepFaultsExactlyAsTheTableSays :
    Runs (at200 0x00EE) ∧ stepFaultOf (at200 0x00EE) = some (.stackUnderflow, 0) ∧
    stepFaultOf { base with pc := 0xFFF#16 } = some (.fetchOob, 0xFFF) ∧
    stepFaultOf { at200 0x2300 with sp := 16 } = some (.stackOverflow, 16) ∧
    stepFaultOf (regs [(5#4, 0x10#8)] (at200 0xE59E)) = some (.keyIndex, 0x10) ∧
    stepFaultOf (regs [(2#4, 0x10#8)] { at200 0xF21E with i := 0xFF0#12 }) = some (.indexOob, 0x1000) ∧
    stepFaultOf (regs [(2#4, 0x10#8)] (at200 0xF229)) = some (.fontIndex, 0x10) ∧
    stepFaultOf { at200 0xFF65 with i := 0xFF1#12 } = some (.memOob, 0x1000) ∧
    stepFaultOf { at200 0xFF65 with i := 0xFF0#12 } = none ∧ stepFaultOf (at200 0x8AB8) = none ∧
    stepFaultOf { at200 0xD120 with i := 0xFFF#12 } = none :=
  ⟨⟨by decide, by decide, by decide⟩, by decide, by decide, by decide, by decide, by decide, by decide, by decide,
   by decide, by decide, by decide⟩

/-! ## Witnesses: the invariant -/

/-- The base state meets the invariant. -/
theorem base_inv : Inv base :=
  ⟨by decide, by decide, by unfold StackOk; decide, by unfold FaultStateOk; decide, by decide⟩

theorem test_witness_StepKeepsTheInvariant : Inv base ∧ ∃ t, step base = .next t ∧ t.pc = 0x202#16 := by
  obtain ⟨t, h, hp⟩ := next_of_answers (o := step base) (p := fun t => t.pc == 0x202#16) (by decide)
  exact ⟨base_inv, t, h, by simpa using hp⟩

theorem test_witness_HostOperationsKeepTheInvariant :
    Inv base ∧ (∃ t, hostOp (.load [0x12#8, 0#8]) base = .next t) ∧ (∃ t, hostOp .singleStep base = .next t) ∧
    ∃ t, hostOp (.setClock 1) base = .next t :=
  ⟨base_inv, ⟨_, rfl⟩, ⟨_, rfl⟩, ⟨_, rfl⟩⟩

/-- Power-up, and the state a RESUME makes of it. -/
theorem test_witness_ReachableStatesMeetTheInvariant : Reachable State.reset ∧ Reachable base :=
  ⟨.reset, .act (.host .resume) .reset rfl⟩

/-! ## Witnesses: timers -/

/-- ST at the number of ticks, and one above it. -/
theorem test_witness_TimerAccountingInClosedForm :
    let s : State := { base with clockHz := 1, st := 60#8 }
    1 ≤ s.clockHz ∧ 1 ≤ s.st.toNat ∧ s.st.toNat ≤ (s.acc + 60) / s.clockHz ∧
    ¬ ({ s with st := 61#8 } : State).st.toNat ≤ (s.acc + 60) / s.clockHz := by decide

/-- Two accountings, two ticks: ST at the number of ticks, and one above it. -/
theorem test_witness_TimerAccountingsCarryTheRemainder :
    let s : State := { base with clockHz := 61, acc := 60, st := 2#8 }
    1 ≤ s.clockHz ∧ s.acc < s.clockHz ∧ 1 ≤ s.st.toNat ∧ s.st.toNat ≤ (s.acc + 60 * 2) / s.clockHz ∧
    ¬ ({ s with st := 3#8 } : State).st.toNat ≤ (s.acc + 60 * 2) / s.clockHz ∧
    1 ≤ base.clockHz ∧ base.acc < base.clockHz := by decide

/-- ST = 1, the tick that emits, and ST = 0. -/
theorem test_witness_TickCountsBothTimersDown :
    (({ base with st := 1#8 } : State).st.toNat = 1) ∧ base.st.toNat = 0 := by decide

/-! ## Witnesses: whole-machine rules -/

/-- VX, VF as the flag, and VF as the last register of FX65. -/
theorem test_witness_RegistersChangeOnlyAsTheTableSays :
    (∃ t, exec (.ldImm 3#4 7#8) base = .next t ∧ t.getV 3#4 ≠ base.getV 3#4) ∧
    (∃ t, exec (.shr 1#4 2#4) (regs [(1#4, 3#8)] base) = .next t ∧
      t.getV 0xF#4 ≠ (regs [(1#4, 3#8)] base).getV 0xF#4) ∧
    (∃ t, exec (.ldVMem 0xF#4) base = .next t ∧ t.getV 0xF#4 ≠ base.getV 0xF#4) := by
  refine ⟨⟨_, rfl, by decide⟩, ?_, ?_⟩
  · obtain ⟨t, h, hp⟩ := next_of_answers (o := exec (.shr 1#4 2#4) (regs [(1#4, 3#8)] base))
      (p := fun t => t.getV 0xF#4 != (regs [(1#4, 3#8)] base).getV 0xF#4) (by decide)
    exact ⟨t, h, by simpa using hp⟩
  · obtain ⟨t, h, hp⟩ := next_of_answers (o := exec (.ldVMem 0xF#4) base)
      (p := fun t => t.getV 0xF#4 != base.getV 0xF#4) (by decide)
    exact ⟨t, h, by simpa using hp⟩

theorem test_witness_OnlyDisplayInstructionsChangeThePlane :
    (∃ t, exec .cls base = .next t ∧ (t.disp ≠ base.disp ∨ t.drawFlag ≠ base.drawFlag)) ∧
    (∃ t, exec (.drw 0#4 0#4 5#4) base = .next t ∧ (t.disp ≠ base.disp ∨ t.drawFlag ≠ base.drawFlag)) := by
  refine ⟨⟨_, rfl, .inr (by decide)⟩, ?_⟩
  obtain ⟨t, h, hp⟩ := next_of_answers (o := exec (.drw 0#4 0#4 5#4) base)
    (p := fun t => t.drawFlag != base.drawFlag) (by decide)
  exact ⟨t, h, .inr (by simpa using hp)⟩

/-- FX33 changes the last of its three bytes at 0xFFF; FX55 changes the byte at I + X = 0xFFF. -/
theorem test_witness_OnlyStoresChangeMemory :
    (∃ t, exec (.ldB 0#4) (regs [(0#4, 7#8)] { base with i := 0xFFD#12 }) = .next t ∧
      readByte t.mem 0xFFF ≠ readByte base.mem 0xFFF) ∧
    (∃ t, exec (.ldMemV 1#4) (regs [(1#4, 7#8)] { base with i := 0xFFE#12 }) = .next t ∧
      readByte t.mem 0xFFF ≠ readByte base.mem 0xFFF) := by
  constructor
  · obtain ⟨t, h, hp⟩ := next_of_answers (o := exec (.ldB 0#4) (regs [(0#4, 7#8)] { base with i := 0xFFD#12 }))
      (p := fun t => readByte t.mem 0xFFF != readByte base.mem 0xFFF) (by decide)
    exact ⟨t, h, by simpa using hp⟩
  · obtain ⟨t, h, hp⟩ := next_of_answers (o := exec (.ldMemV 1#4) (regs [(1#4, 7#8)] { base with i := 0xFFE#12 }))
      (p := fun t => readByte t.mem 0xFFF != readByte base.mem 0xFFF) (by decide)
    exact ⟨t, h, by simpa using hp⟩

/-- Each special register changes under one of its writers. -/
theorem test_witness_SpecialRegistersHaveTheirOwnWriters :
    answers (exec (.ldI 5#12) base) (fun t => t.i != base.i) = true ∧
    answers (exec (.addI 0#4) (regs [(0#4, 5#8)] base)) (fun t => t.i != base.i) = true ∧
    answers (exec (.ldF 0#4) (regs [(0#4, 5#8)] base)) (fun t => t.i != base.i) = true ∧
    answers (exec (.call 5#12) base) (fun t => t.stack != base.stack && t.sp != base.sp) = true ∧
    answers (exec .ret { base with sp := 1 }) (fun t => t.sp != 1) = true ∧
    answers (exec (.ldDtV 0#4) (regs [(0#4, 5#8)] base)) (fun t => t.dt != base.dt) = true ∧
    answers (exec (.ldStV 0#4) (regs [(0#4, 5#8)] base)) (fun t => t.st != base.st) = true := by decide

theorem test_witness_NoStepChangesWhatTheHostOwns :
    (∃ t, step base = .next t) ∧ ∃ t, exec (.jp 5#12) base = .next t := by
  obtain ⟨t, h, -⟩ := next_of_answers (o := step base) (p := fun _ => true) (by decide)
  exact ⟨⟨t, h⟩, ⟨_, rfl⟩⟩

/-- The forms of PcAfter: pc + 2, a skip whose condition holds and one whose does not, both key skips at index 0xF, the
jumps, a return from entries 0 and 15, the keyboard wait with no key and with the highest one. -/
theorem test_witness_EveryOperationAdvancesPcItself :
    base.halted = false ∧
    answers (exec (.sys 0#12) base) (fun t => !t.halted && t.pc == 0x202#16) = true ∧
    answers (exec (.seImm 0#4 0#8) base) (fun t => !t.halted && t.pc == 0x204#16) = true ∧
    answers (exec (.seImm 0#4 1#8) base) (fun t => !t.halted && t.pc == 0x202#16) = true ∧
    answers (exec (.skp 5#4) (regs [(5#4, 0xF#8)] base)) (fun t => !t.halted && t.pc == 0x202#16) = true ∧
    answers (exec (.sknp 5#4) (regs [(5#4, 0xF#8)] base)) (fun t => !t.halted && t.pc == 0x204#16) = true ∧
    answers (exec (.jp 5#12) base) (fun t => !t.halted && t.pc == 5#16) = true ∧
    answers (exec (.jpV0 0xFFF#12) (regs [(0#4, 1#8)] base)) (fun t => !t.halted && t.pc == 0x1000#16) = true ∧
    answers (exec .ret { base with sp := 1 }) (fun t => !t.halted && t.pc == 0#16) = true ∧
    answers (exec .ret { base with sp := 16 }) (fun t => !t.halted && t.pc == 0#16) = true ∧
    NoKey base ∧ answers (exec (.ldVK 0#4) base) (fun t => !t.halted && t.pc == 0x200#16) = true ∧
    ¬ NoKey { base with key := keys [15] } ∧
    answers (exec (.ldVK 0#4) { base with key := keys [15] }) (fun t => !t.halted && t.pc == 0x202#16) = true := by
  unfold NoKey; decide

/-- The clause on the whole step: a decoded instruction whose execution and whose step both answer next. -/
theorem test_witness_EveryOperationAdvancesPcItself_step :
    (at200 0x6A2F).halted = false ∧ (at200 0x6A2F).runMode = .running ∧ (at200 0x6A2F).pc.toNat ≤ 0xFFE ∧
    decode (fetch16 (at200 0x6A2F)) = .ok (.ldImm 0xA#4 0x2F#8) ∧
    (∃ u, exec (.ldImm 0xA#4 0x2F#8) { at200 0x6A2F with opcode := fetch16 (at200 0x6A2F) } = .next u) ∧
    ∃ t, step (at200 0x6A2F) = .next t := by
  obtain ⟨t, h, -⟩ := next_of_answers (o := step (at200 0x6A2F)) (p := fun _ => true) (by decide)
  exact ⟨by decide, by decide, by decide, rfl, ⟨_, rfl⟩, t, h⟩

/-- A step that emits a tone, after an earlier event. -/
theorem test_witness_EmittedEventsNeverInfluenceAStep :
    ∃ t, step { base with clockHz := 60, st := 1#8, events := [.tone 1000 50] } = .next t ∧
      t.events = [.tone 1000 50, .tone 1000 50] := by
  obtain ⟨t, h, hp⟩ := next_of_answers (o := step { base with clockHz := 60, st := 1#8, events := [.tone 1000 50] })
    (p := fun t => t.events == [.tone 1000 50, .tone 1000 50]) (by decide)
  exact ⟨t, h, by simpa using hp⟩

/-! ## Witnesses: instructions -/

/-- The stack with 0, 1, 15 and 16 entries. -/
theorem test_witness_CallPushesTheReturnAddress :
    ({ base with sp := 15 } : State).sp.val ≤ 15 ∧ base.sp.val ≤ 15 ∧ ({ base with sp := 16 } : State).sp.val = 16 := by
  decide
theorem test_witness_RetPopsTheReturnAddress :
    ({ base with sp := 1 } : State).sp.val = (0 : Fin 16).val + 1 ∧
    ({ base with sp := 16 } : State).sp.val = (15 : Fin 16).val + 1 ∧ base.sp.val = 0 := by decide
theorem test_witness_RetUndoesCall : base.sp.val ≤ 15 ∧ ({ base with sp := 15 } : State).sp.val ≤ 15 := by decide

/-- Both outcomes of the conditions of 3XKK, 4XKK, 5XY0 and 9XY0. -/
theorem test_witness_Skips :
    (regs [(3#4, 7#8)] base).getV 3#4 = 7#8 ∧ (regs [(3#4, 7#8)] base).getV 3#4 ≠ 8#8 ∧
    (regs [(3#4, 7#8)] base).getV 3#4 ≠ (regs [(3#4, 7#8)] base).getV 4#4 ∧ base.getV 3#4 = base.getV 4#4 := by decide

/-- Key indices 0xF, pressed and not, and 0x10. -/
theorem test_witness_KeySkips :
    ((regs [(5#4, 0xF#8)] base).getV 5#4).toNat = (15 : Fin 16).val ∧ base.key[(15 : Fin 16)] = false ∧
    ({ base with key := keys [15] } : State).key[(15 : Fin 16)] = true ∧
    ((regs [(5#4, 0x10#8)] base).getV 5#4).toNat > 0xF := by decide

/-- Both cases of WriteRF: X other than F, and X = F; the two orders differ there. -/
theorem test_witness_FlagOrderDecidesOnlyWhenXIsF :
    (0xE#4 ≠ 0xF#4) ∧
    writeRFRegs .flagLast 0xF#4 2#8 1#8 base.v ≠ writeRFRegs .resultLast 0xF#4 2#8 1#8 base.v := by decide

/-- Sums at 255 and 256; operands on either side of a borrow. -/
theorem test_witness_arithmetic_flags :
    let s := regs [(1#4, 0xFE#8), (2#4, 1#8), (3#4, 2#8)] base
    (s.getV 1#4).toNat + (s.getV 2#4).toNat = 255 ∧ (s.getV 1#4).toNat + (s.getV 3#4).toNat > 255 ∧
    (s.getV 2#4).toNat < (s.getV 3#4).toNat ∧ ¬ (s.getV 3#4).toNat < (s.getV 3#4).toNat := by decide

theorem test_witness_RandomIsAMaskedFreshDraw :
    ∃ t, exec (.rnd 3#4 0xFF#8) base = .next t ∧ t.draws ≠ base.draws := ⟨_, rfl, by decide⟩

/-- Glyph digits 0xF and 0x10; index sums 0xFFF and 0x1000. -/
theorem test_witness_IndexLoads :
    ((regs [(4#4, 0xF#8)] base).getV 4#4).toNat ≤ 0xF ∧ ((regs [(4#4, 0x10#8)] base).getV 4#4).toNat > 0xF := by decide
theorem test_witness_AddIndexIsExactOrFaults :
    (0xFF0#12).toNat + ((regs [(2#4, 0xF#8)] { base with i := 0xFF0#12 }).getV 2#4).toNat ≤ 0xFFF ∧
    (0xFF0#12).toNat + ((regs [(2#4, 0x10#8)] { base with i := 0xFF0#12 }).getV 2#4).toNat > 0xFFF := by decide
theorem test_witness_BcdStoresThreeDigits :
    Memory.wf base.mem = true ∧ Memory.wf (at200 0xF033).mem = true ∧
    ({ base with i := 0xFFD#12 } : State).i.toNat ≤ 0xFFD ∧ ({ base with i := 0xFFE#12 } : State).i.toNat > 0xFFD := by
  decide
/-- I + X at 0xFFF and 0x1000, and a register in the range. -/
theorem test_witness_StoreRegistersAtI :
    Memory.wf (at200 0xFF55).mem = true ∧ ({ at200 0xFF55 with i := 0xFF0#12 } : State).i.toNat + (0xF#4).toNat ≤ 0xFFF ∧
    ({ at200 0xFF55 with i := 0xFF1#12 } : State).i.toNat + (0xF#4).toNat > 0xFFF ∧ (0xF#4).toNat ≤ (0xF#4).toNat := by
  decide
theorem test_witness_LoadRegistersFromI :
    ({ base with i := 0xFFF#12 } : State).i.toNat + (0#4).toNat ≤ 0xFFF ∧
    ({ base with i := 0xFFF#12 } : State).i.toNat + (1#4).toNat > 0xFFF ∧ (0#4).toNat ≤ (0#4).toNat ∧
    ¬ (1#4).toNat ≤ (0#4).toNat := by decide
/-- M19, and the highest place where it can happen. -/
theorem test_witness_StoredCodeIsFetchedNext :
    (let s : State := { at200 0xF155 with i := 0x202#12 }
     Memory.wf s.mem = true ∧ 1 ≤ (1#4).toNat ∧ s.pc.toNat ≤ 0xFFE ∧ s.i.toNat = s.pc.toNat + 2 ∧
       s.i.toNat + (1#4).toNat ≤ 0xFFF) ∧
    (let s : State := { base with pc := 0xFFC#16, i := 0xFFE#12 }
     s.i.toNat = s.pc.toNat + 2 ∧ s.i.toNat + (1#4).toNat ≤ 0xFFF) := by decide

/-- Lowest keys 0 and 15, a lowest key with a higher one pressed, and no key. -/
theorem test_witness_KeyWaitTakesTheLowestKey :
    (∀ p ∈ [(keys [0], (0 : Fin 16)), (keys [15], 15), (keys [0xC, 7], 7)],
      p.1[p.2] = true ∧ ∀ j : Fin 16, j < p.2 → p.1[j] = false) ∧
    ∀ k : Fin 16, base.key[k] = false := by decide
theorem test_witness_KeyWaitIsAFullStep :
    Runs (at200 0xF40A) ∧ (at200 0xF40A).pc.toNat ≤ 0xFFE ∧
    (fetch16 (at200 0xF40A)).toNat = 0xF00A + (4#4).toNat * 0x100 ∧ (∀ k : Fin 16, (at200 0xF40A).key[k] = false) :=
  ⟨⟨by decide, by decide, by decide⟩, by decide, by decide, by decide⟩

/-- N = 0 with I at the top; a sprite that ends at 0xFFF; one that reaches 0x1000; a collision; no collision. -/
theorem test_witness_DrawTogglesTheSpritesPixels :
    (0#4).toNat = 0 ∧ ({ base with i := 0xFFB#12 } : State).i.toNat + (5#4).toNat ≤ 0x1000 ∧
    (1 ≤ (5#4).toNat ∧ ({ base with i := 0xFFC#12 } : State).i.toNat + (5#4).toNat > 0x1000) ∧
    (let s : State := { base with disp := setPixel blankPlane 0 0 true }
     ∃ r c, Covers s (s.getV 1#4) (s.getV 2#4) (5#4).toNat r c ∧ pixelAt s.disp r c = true) ∧
    (∀ r c, pixelAt base.disp r c = false) :=
  ⟨by decide, by decide, by decide, ⟨0, 0, ⟨0, 0, by decide, by decide, by decide, by decide, by decide⟩, by decide⟩,
   by intro r c; simp [pixelAt, base, State.reset]⟩
theorem test_witness_DrawingTwiceRestoresThePlane :
    1#4 ≠ 0xF#4 ∧ 2#4 ≠ 0xF#4 ∧ base.i.toNat + (5#4).toNat ≤ 0x1000 ∧ base.disp = blankPlane ∧
    ∃ r c, Covers base (base.getV 1#4) (base.getV 2#4) (5#4).toNat r c :=
  ⟨by decide, by decide, by decide, rfl, 0, 0, 0, 0, by decide, by decide, by decide, by decide, by decide⟩

/-! ## Witnesses: the host -/

/-- The largest ROM, an oversized one, and a byte of a small one. -/
theorem test_witness_LoadCopiesTheRom :
    (List.replicate 3584 0x12#8).length ≤ 3584 ∧ (List.replicate 3585 0x12#8).length > 3584 ∧
    0 < (List.replicate 3584 0x12#8).length := by
  simp only [List.length_replicate]; decide
theorem test_witness_RunControl :
    State.reset.halted = false ∧ State.reset.runMode = .paused ∧
    ∃ t, step { State.reset with runMode := .running } = .next t := by
  obtain ⟨t, h, -⟩ := next_of_answers (o := step { State.reset with runMode := .running }) (p := fun _ => true) (by decide)
  exact ⟨rfl, rfl, t, h⟩
theorem test_witness_HostInputsAndReads :
    (1 ≤ 1) ∧ (∃ j : Fin 16, j.val = (0xF#4).toNat) ∧ ∃ j : Fin 16, ¬ j.val = (0xF#4).toNat := by decide
theorem test_witness_HostWritesNoProgramState :
    (∀ op ∈ [HostOp.pause, .resume, .setClock 60, .key 3#4 true, .clearDrawFlag, .render, .readState],
      op ≠ .reset ∧ op ≠ .singleStep ∧ answers (hostOp op base) (fun _ => true) = true) ∧
    ∀ b, HostOp.setClock 60 ≠ .load b :=
  ⟨by decide, by intro b; simp⟩
/-- SINGLE_STEP that performs a cycle, and SINGLE_STEP of a running and of a halted core. -/
theorem test_witness_HostWritesNoProgramState_singleStep :
    answers (hostOp .singleStep State.reset) (fun t => t.pc == 0x202#16 && t.runMode == .paused) = true ∧
    answers (hostOp .singleStep base) (fun t => t == base) = true ∧
    answers (hostOp .singleStep { State.reset with halted := true }) (fun t => t.pc == 0x200#16) = true := by decide

end Sys2Proof.Tests
end

section
/-! Proofs of the memory family (20_memory.md): what a fetch reads. -/

namespace Sys2Proof.Machine

/-- The word a fetch reads, as the number its two bytes make (20_memory.md R61). -/
theorem toNat_fetch16 (s : State) : (fetch16 s).toNat =
    (readByte s.mem s.pc.toNat).toNat * 256 + (readByte s.mem (s.pc.toNat + 1)).toNat :=
  toNat_composeWord _ _

/-- Settles O5: a fetch composes the bytes at pc and pc + 1, and `toNat_composeWord` gives the word's value. -/
theorem fetchIsBigEndian : Obligations.FetchIsBigEndian := by
  unfold Obligations.FetchIsBigEndian
  exact toNat_fetch16

end Sys2Proof.Machine
end

section
/-! Proofs of the arithmetic family (43_alu.md): the words of the arithmetic instructions, the registers after a plain
and after a flag-setting write, and the arithmetic results as exact numbers. -/

namespace Sys2Proof.Machine

open Sys2Proof.Claims

/-! ### The words of the instructions -/

/-- The X and KK form of a class, from what the decoder reads from the encoder's words of that form. -/
theorem encodesXKK_of_decode {c : Nibble} {mk : Nibble → Byte → Instr}
    (h : ∀ x kk, decode (wordXKK c x kk) = .ok (mk x kk)) : EncodesXKK c.toNat mk := by
  intro w x kk hw
  rw [eq_wordXKK_of_toNat hw]
  exact h x kk

/-- Words of class 8 are read by `decodeGroup8` (30_encoding.md R96). -/
theorem decode_wordXYN_class8 (x y n : Nibble) : decode (wordXYN 0x8#4 x y n) = decodeGroup8 x y n := by
  simp [decode]

/-- The form of one sub-opcode of class 8, from its arm of `decodeGroup8`. -/
theorem encodesXY_of_decodeGroup8 {n : Nibble} {mk : Nibble → Nibble → Instr}
    (h : ∀ x y, decodeGroup8 x y n = .ok (mk x y)) : EncodesXY 0x8 n.toNat mk := by
  intro w x y hw
  rw [eq_wordXYN_of_toNat (c := 0x8#4) hw, decode_wordXYN_class8]
  exact h x y

theorem encodesXKK_addImm : EncodesXKK 0x7 .addImm :=
  encodesXKK_of_decode (c := 0x7#4) fun x kk => by simp [decode]

theorem encodesXY_addReg : EncodesXY 0x8 0x4 .addReg :=
  encodesXY_of_decodeGroup8 (n := 0x4#4) fun _ _ => rfl

theorem encodesXY_sub : EncodesXY 0x8 0x5 .sub :=
  encodesXY_of_decodeGroup8 (n := 0x5#4) fun _ _ => rfl

theorem encodesXY_subn : EncodesXY 0x8 0x7 .subn :=
  encodesXY_of_decodeGroup8 (n := 0x7#4) fun _ _ => rfl

/-! ### Registers after a write -/

@[simp] theorem State.advance_getV (s : State) (x : Nibble) : s.advance.getV x = s.getV x := rfl

theorem otherRegsSame_setV_advance (s : State) (x : Nibble) (b : Byte) :
    OtherRegsSame x s (s.setV x b).advance := by
  intro y hy
  rw [State.advance_getV, getV_setV, if_neg hy]

/-- WriteRF, in whichever order FLAG_ORDER puts its two writes, leaves the registers that R181 gives. -/
theorem regsAfterRF_writeRF_advance (s : State) (x : Nibble) (r f : Byte) :
    RegsAfterRF x r f s (s.writeRF x r f).advance := by
  refine ⟨fun hx => ⟨?_, ?_⟩, fun hx => ?_, fun y hyx hyF => ?_⟩
  · rw [State.advance_getV, getV_writeRF, if_neg hx, if_pos rfl]
  · rw [State.advance_getV, getV_writeRF, if_pos rfl, if_neg hx]
  · rw [State.advance_getV, getV_writeRF, if_pos rfl, if_pos hx]
    rfl
  · rw [State.advance_getV, getV_writeRF, if_neg hyF, if_neg hyx]

/-- An instruction that goes on after writing V[x] changes nothing beside it but pc. -/
theorem exists_next_of_setV {i : Instr} {s : State} {x : Nibble} {b : Byte}
    (h : exec i s = .next (s.setV x b).advance) :
    ∃ t, exec i s = .next t ∧ t.getV x = b ∧ OtherRegsSame x s t ∧ t.pc = s.pc + 2#16 ∧ OnlyRegsAndPc s t := by
  have hx : (s.setV x b).advance.getV x = b := by rw [State.advance_getV, getV_setV, if_pos rfl]
  exact ⟨_, h, hx, otherRegsSame_setV_advance s x b, rfl, rfl, fun _ => rfl⟩

/-- An instruction that goes on after WriteRF changes nothing beside its registers but pc. -/
theorem exists_next_of_writeRF {i : Instr} {s : State} {x : Nibble} {r f : Byte}
    (h : exec i s = .next (s.writeRF x r f).advance) :
    ∃ t, exec i s = .next t ∧ RegsAfterRF x r f s t ∧ t.pc = s.pc + 2#16 ∧ OnlyRegsAndPc s t :=
  ⟨_, h, regsAfterRF_writeRF_advance s x r f, rfl, rfl, fun _ => rfl⟩

/-! ### Results and flags as exact numbers -/

theorem toNat_addResult (a b : Byte) : (addResult a b).toNat = (a.toNat + b.toNat) % 256 := by
  simp [addResult]

theorem flagByte_addCarry (a b : Byte) :
    flagByte (addCarry a b) = if a.toNat + b.toNat > 255 then 1#8 else 0#8 := by
  simp [flagByte, addCarry]

/-- The model's a + 256 - b in the naturals is a - b modulo 256 in the integers (43_alu.md R180). -/
theorem subResult_eq_ofInt (a b : Byte) :
    subResult a b = BitVec.ofInt 8 ((a.toNat - b.toNat : Int) % 256) := by
  apply BitVec.eq_of_toNat_eq
  have := b.isLt
  rw [subResult, BitVec.toNat_ofNat, BitVec.toNat_ofInt]
  omega

theorem flagByte_subNoBorrow (a b : Byte) :
    flagByte (subNoBorrow a b) = if a.toNat < b.toNat then 0#8 else 1#8 := by
  by_cases h : a.toNat < b.toNat <;> simp [flagByte, subNoBorrow, h]

/-! ### The instructions -/

theorem exec_addReg (x y : Nibble) (s : State) : exec (.addReg x y) s =
    .next (s.writeRF x (BitVec.ofNat 8 (((s.getV x).toNat + (s.getV y).toNat) % 256))
      (if (s.getV x).toNat + (s.getV y).toNat > 255 then 1#8 else 0#8)).advance := by
  rw [← flagByte_addCarry]
  rfl

theorem exec_sub (x y : Nibble) (s : State) : exec (.sub x y) s =
    .next (s.writeRF x (BitVec.ofInt 8 (((s.getV x).toNat - (s.getV y).toNat : Int) % 256))
      (if (s.getV x).toNat < (s.getV y).toNat then 0#8 else 1#8)).advance := by
  rw [← flagByte_subNoBorrow, ← subResult_eq_ofInt]
  rfl

theorem exec_subn (x y : Nibble) (s : State) : exec (.subn x y) s =
    .next (s.writeRF x (BitVec.ofInt 8 (((s.getV y).toNat - (s.getV x).toNat : Int) % 256))
      (if (s.getV y).toNat < (s.getV x).toNat then 0#8 else 1#8)).advance := by
  rw [← flagByte_subNoBorrow, ← subResult_eq_ofInt]
  rfl

/-- Settles O36: the instruction is one register write of the sum, which `toNat_addResult` gives as a number. -/
theorem addImmediateWrapsWithoutFlag : Obligations.AddImmediateWrapsWithoutFlag := by
  unfold Obligations.AddImmediateWrapsWithoutFlag
  refine ⟨encodesXKK_addImm, fun x kk s => ?_⟩
  obtain ⟨t, ht, hx, hframe⟩ := exists_next_of_setV (i := .addImm x kk) (s := s) rfl
  exact ⟨t, ht, by rw [hx, toNat_addResult], hframe⟩

/-- Settles O39: the instruction is WriteRF of the sum and the carry, under either FLAG_ORDER. -/
theorem addRegisterSetsCarry : Obligations.AddRegisterSetsCarry := by
  unfold Obligations.AddRegisterSetsCarry
  exact ⟨encodesXY_addReg, fun x y s => exists_next_of_writeRF (exec_addReg x y s)⟩

/-- Settles O40: both instructions are WriteRF of the integer difference modulo 256 and NOT borrow, under either
FLAG_ORDER. -/
theorem subtractionsSetNotBorrow : Obligations.SubtractionsSetNotBorrow := by
  unfold Obligations.SubtractionsSetNotBorrow
  exact ⟨encodesXY_sub, encodesXY_subn, fun x y s =>
    ⟨exists_next_of_writeRF (exec_sub x y s), exists_next_of_writeRF (exec_subn x y s)⟩⟩

end Sys2Proof.Machine
end

section
/-! Proofs of the timer and keyboard family (45_timers_keys.md): the words of class F, the lowest pressed key, and the
two answers of the key wait. -/

namespace Sys2Proof.Machine

open Sys2Proof.Claims

/-- Words of class F are read by `decodeGroupF` (30_encoding.md R98). -/
theorem decode_wordXKK_classF (x : Nibble) (kk : Byte) : decode (wordXKK 0xF#4 x kk) = decodeGroupF x kk := by
  simp [decode]

/-- The form of one low byte of class F, from its arm of `decodeGroupF`. -/
theorem encodesX_of_decodeGroupF {kk : Byte} {mk : Nibble → Instr}
    (h : ∀ x, decodeGroupF x kk = .ok (mk x)) : EncodesX 0xF kk.toNat mk := by
  intro w x hw
  rw [eq_wordXKK_of_toNat (c := 0xF#4) hw, decode_wordXKK_classF]
  exact h x

theorem encodesX_ldVK : EncodesX 0xF 0x0A .ldVK :=
  encodesX_of_decodeGroupF (kk := 0x0A#8) fun _ => rfl

/-- A pressed key below which no key is pressed is the lowest key. -/
theorem lowestKey_eq_some {s : State} {k : Fin 16} (hk : s.key[k] = true)
    (hlow : ∀ j : Fin 16, j < k → s.key[j] = false) : lowestKey s = some k.val := by
  refine (firstTrue_eq_some _ _ _).mpr ⟨Nat.zero_le _, ?_, fun j _ hj => ?_⟩
  · simpa using hk
  · have hj16 : j < 16 := hj.trans k.isLt
    simpa [hj16] using hlow ⟨j, hj16⟩ hj

theorem exec_ldVK_of_some {s : State} {k : Nat} (x : Nibble) (h : lowestKey s = some k) :
    exec (.ldVK x) s = .next (s.setV x (BitVec.ofNat 8 k)).advance := by
  simp [exec, execLdVK, h]

theorem exec_ldVK_of_none {s : State} (x : Nibble) (h : lowestKey s = none) : exec (.ldVK x) s = .next s := by
  simp [exec, execLdVK, h]

/-- Settles O50: with a lowest key the instruction is one register write of its index, which fits a byte; with none it
answers the state itself. -/
theorem keyWaitTakesTheLowestKey : Obligations.KeyWaitTakesTheLowestKey := by
  unfold Obligations.KeyWaitTakesTheLowestKey
  refine ⟨encodesX_ldVK, fun x s => ⟨fun k hk hlow => ?_, fun hnone => ?_⟩⟩
  · obtain ⟨t, ht, hx, hframe⟩ := exists_next_of_setV (exec_ldVK_of_some x (lowestKey_eq_some hk hlow))
    have hfits : k.val < 2 ^ 8 := by omega
    exact ⟨t, ht, by rw [hx, BitVec.toNat_ofNat, Nat.mod_eq_of_lt hfits], hframe⟩
  · exact exec_ldVK_of_none x (lowestKey_eq_none hnone)

end Sys2Proof.Machine
end

section
/-! Proofs of the encoding (30_encoding.md): the decoder read class by class, the two directions of the round trip, the
unknown words, and from them the word forms of the instructions. -/

namespace Sys2Proof

open Sys2Proof.Claims Sys2Proof.Machine

/-! ### The decoder, class by class -/

/-- Class 0 words other than 00E0 and 00EE are SYS (30_encoding.md R95). -/
theorem decode_wordNNN_class0 {nnn : Addr} (h : (Instr.sys nnn).wellFormed = true) :
    decode (wordNNN 0x0#4 nnn) = .ok (.sys nnn) := by
  obtain ⟨hcls, hret⟩ : nnn ≠ 0x0E0#12 ∧ nnn ≠ 0x0EE#12 := by simpa [Instr.wellFormed] using h
  have hne : ∀ a : Addr, nnn ≠ a → wordNNN 0x0#4 nnn ≠ wordNNN 0x0#4 a := fun a ha e =>
    ha (by simpa using congrArg fieldNNN e)
  simp only [decode, fieldClass_wordNNN, decodeGroup0, fieldNNN_wordNNN]
  exact congrArg _ ((if_neg (hne 0x0E0#12 hcls)).trans (if_neg (hne 0x0EE#12 hret)))

theorem decode_wordXKK_classE (x : Nibble) (kk : Byte) : decode (wordXKK 0xE#4 x kk) = decodeGroupE x kk := by
  simp [decode]

/-- The decoder reads the word of every well-formed instruction as that instruction. -/
theorem decode_encode (i : Instr) (h : i.wellFormed = true) : decode (encode i) = .ok i := by
  cases i with
  | cls | ret => rfl
  | sys nnn => exact decode_wordNNN_class0 h
  | jp | call | ldI | jpV0 => simp [encode, decode]
  | seImm | sneImm | ldImm | addImm | rnd => simp [encode, decode]
  | seReg | sneReg | drw => simp [encode, decode]
  | ldReg x y | orReg x y | andReg x y | xorReg x y | addReg x y | sub x y | shr x y | subn x y | shl x y =>
    exact decode_wordXYN_class8 x y _
  | skp x | sknp x => exact decode_wordXKK_classE x _
  | ldVDt x | ldVK x | ldDtV x | ldStV x | addI x | ldF x | ldB x | ldMemV x | ldVMem x =>
    exact decode_wordXKK_classF x _

/-- Settles O1: `decode_encode`, by the word shape of each instruction. -/
theorem decodeOfEncodeIsIdentity : Obligations.DecodeOfEncodeIsIdentity := by
  unfold Obligations.DecodeOfEncodeIsIdentity
  exact decode_encode

/-! ### The word of a decoded instruction -/

/-- i is an instruction, and w is the word the encoder gives it. -/
def IsWordOf (w : Word) (i : Instr) : Prop := i.wellFormed = true ∧ encode i = w

theorem isWordOf_decodeGroup0 {w : Word} (hc : fieldClass w = 0x0#4) : IsWordOf w (decodeGroup0 w) := by
  have hw : w = wordNNN 0x0#4 (fieldNNN w) := hc ▸ eq_wordNNN_of_fields w
  unfold decodeGroup0
  split
  · next h => exact ⟨rfl, h.symm⟩
  · next hcls =>
    split
    · next h => exact ⟨rfl, h.symm⟩
    · next hret =>
      have hne : ∀ a : Addr, w ≠ wordNNN 0x0#4 a → fieldNNN w ≠ a := fun a ha e => ha (e ▸ hw)
      refine ⟨?_, hw.symm⟩
      simpa [Instr.wellFormed] using And.intro (hne 0x0E0#12 hcls) (hne 0x0EE#12 hret)

/-- One arm of a secondary decode: it gives its instruction, or the arms after it decide. -/
theorem ok_of_arm {arm : Prop} [Decidable arm] {i j : Instr} {rest : Except Unknown Instr}
    (h : (if arm then .ok j else rest) = .ok i) : (arm ∧ j = i) ∨ rest = .ok i := by
  by_cases ha : arm
  · rw [if_pos ha] at h
    exact .inl ⟨ha, by injection h⟩
  · rw [if_neg ha] at h
    exact .inr h

theorem isWordOf_decodeGroup8 {x y n : Nibble} {i : Instr} (h : decodeGroup8 x y n = .ok i) :
    IsWordOf (wordXYN 0x8#4 x y n) i := by
  unfold decodeGroup8 at h
  iterate 9
    obtain ⟨rfl, rfl⟩ | h := ok_of_arm h
    · exact ⟨rfl, rfl⟩
  cases h

theorem isWordOf_decodeGroupE {x : Nibble} {kk : Byte} {i : Instr} (h : decodeGroupE x kk = .ok i) :
    IsWordOf (wordXKK 0xE#4 x kk) i := by
  unfold decodeGroupE at h
  iterate 2
    obtain ⟨rfl, rfl⟩ | h := ok_of_arm h
    · exact ⟨rfl, rfl⟩
  cases h

theorem isWordOf_decodeGroupF {x : Nibble} {kk : Byte} {i : Instr} (h : decodeGroupF x kk = .ok i) :
    IsWordOf (wordXKK 0xF#4 x kk) i := by
  unfold decodeGroupF at h
  iterate 9
    obtain ⟨rfl, rfl⟩ | h := ok_of_arm h
    · exact ⟨rfl, rfl⟩
  cases h

/-- The canonical word of a class whose low nibble is a field is the word itself. -/
theorem canonicalWord_of_class {w : Word} {c : Nibble} (hc : fieldClass w = c)
    (h : c ≠ 0x5#4 ∧ c ≠ 0x9#4 := by decide) : canonicalWord w = w := by
  have hval : w.toNat / 4096 = c.toNat := by rw [← hc, toNat_fieldClass]
  refine if_neg ?_
  rintro (h5 | h9)
  · exact h.1 (BitVec.eq_of_toNat_eq (hval.symm.trans h5))
  · exact h.2 (BitVec.eq_of_toNat_eq (hval.symm.trans h9))

theorem wordXYN_and (c x y n c' x' y' n' : Nibble) : wordXYN c x y n &&& wordXYN c' x' y' n' =
    wordXYN (c &&& c') (x &&& x') (y &&& y') (n &&& n') :=
  BitVec.and_append.trans (congrArg ((c &&& c') ++ ·) (BitVec.and_append.trans
    (congrArg ((x &&& x') ++ ·) BitVec.and_append)))

/-- The mask FFF0 clears the field N and keeps the others. -/
theorem wordXYN_and_FFF0 (c x y n : Nibble) : wordXYN c x y n &&& 0xFFF0#16 = wordXYN c x y 0x0#4 := by
  have h := wordXYN_and c x y n (BitVec.allOnes 4) (BitVec.allOnes 4) (BitVec.allOnes 4) 0x0#4
  rwa [BitVec.and_allOnes, BitVec.and_allOnes, BitVec.and_allOnes, BitVec.and_zero] at h

/-- The canonical word of a class-5 or class-9 word has its low nibble cleared (R99). -/
theorem canonicalWord_of_class5_or_class9 {w : Word} {c : Nibble} (hc : fieldClass w = c)
    (h : c = 0x5#4 ∨ c = 0x9#4 := by decide) :
    canonicalWord w = wordXYN c (fieldX w) (fieldY w) 0x0#4 := by
  have hval : w.toNat / 4096 = c.toNat := by rw [← hc, toNat_fieldClass]
  have hif : w.toNat / 4096 = 5 ∨ w.toNat / 4096 = 9 := by
    rw [hval]
    exact h.imp (congrArg BitVec.toNat) (congrArg BitVec.toNat)
  rw [canonicalWord, if_pos hif]
  conv_lhs => rw [eq_wordXYN_of_fields w, wordXYN_and_FFF0, hc]

theorem eq_wordNNN_of_class {w : Word} {c : Nibble} (hc : fieldClass w = c) : w = wordNNN c (fieldNNN w) :=
  hc ▸ eq_wordNNN_of_fields w

theorem eq_wordXKK_of_class {w : Word} {c : Nibble} (hc : fieldClass w = c) :
    w = wordXKK c (fieldX w) (fieldKK w) :=
  hc ▸ eq_wordXKK_of_fields w

theorem eq_wordXYN_of_class {w : Word} {c : Nibble} (hc : fieldClass w = c) :
    w = wordXYN c (fieldX w) (fieldY w) (fieldN w) :=
  hc ▸ eq_wordXYN_of_fields w

theorem IsWordOf.canonical {w w' : Word} {i : Instr} (hi : IsWordOf w' i) (hw : w = w') {c : Nibble}
    (hc : fieldClass w = c) (hne : c ≠ 0x5#4 ∧ c ≠ 0x9#4 := by decide) : IsWordOf (canonicalWord w) i := by
  rwa [canonicalWord_of_class hc hne, hw]

/-- w is the word of i, up to the ignored nibble, in a class without a secondary decode that can reject it. -/
def IsKnownAs (w : Word) (i : Instr) : Prop :=
  fieldClass w ∉ [0x8#4, 0xE#4, 0xF#4] ∧ IsWordOf (canonicalWord w) i

theorem isKnownAs_of_class {w w' : Word} {i : Instr} {c : Nibble} (hc : fieldClass w = c) (hw : w = w')
    (hi : IsWordOf w' i) (hne : c ∉ [0x5#4, 0x9#4, 0x8#4, 0xE#4, 0xF#4]) : IsKnownAs w i := by
  simp only [List.mem_cons, not_or] at hne
  exact ⟨by simpa [hc] using hne.2.2, hi.canonical hw hc ⟨hne.1, hne.2.1⟩⟩

theorem isKnownAs_nnn (c : Nibble) {w : Word} {i : Instr} (h : (fieldClass w).toNat = c.toNat)
    (hi : IsWordOf (wordNNN c (fieldNNN w)) i)
    (hne : c ∉ [0x5#4, 0x9#4, 0x8#4, 0xE#4, 0xF#4] := by decide) : IsKnownAs w i :=
  have hc := BitVec.eq_of_toNat_eq h
  isKnownAs_of_class hc (eq_wordNNN_of_class hc) hi hne

theorem isKnownAs_xkk (c : Nibble) {w : Word} {i : Instr} (h : (fieldClass w).toNat = c.toNat)
    (hi : IsWordOf (wordXKK c (fieldX w) (fieldKK w)) i)
    (hne : c ∉ [0x5#4, 0x9#4, 0x8#4, 0xE#4, 0xF#4] := by decide) : IsKnownAs w i :=
  have hc := BitVec.eq_of_toNat_eq h
  isKnownAs_of_class hc (eq_wordXKK_of_class hc) hi hne

theorem isKnownAs_drw {w : Word} (h : (fieldClass w).toNat = (0xD#4).toNat) :
    IsKnownAs w (.drw (fieldX w) (fieldY w) (fieldN w)) :=
  have hc := BitVec.eq_of_toNat_eq h
  isKnownAs_of_class hc (eq_wordXYN_of_class hc) ⟨rfl, rfl⟩ (by decide)

/-- Class 0 is read by `decodeGroup0`. -/
theorem isKnownAs_decodeGroup0 {w : Word} (h : (fieldClass w).toNat = (0x0#4).toNat) :
    IsKnownAs w (decodeGroup0 w) :=
  have hc := BitVec.eq_of_toNat_eq h
  isKnownAs_of_class hc rfl (isWordOf_decodeGroup0 hc) (by decide)

/-- A word of class 5 or 9 is known whatever its low nibble. -/
theorem isKnownAs_xy (c : Nibble) {w : Word} {i : Instr} (h : (fieldClass w).toNat = c.toNat)
    (hi : IsWordOf (wordXYN c (fieldX w) (fieldY w) 0x0#4) i) (hc59 : c = 0x5#4 ∨ c = 0x9#4 := by decide) :
    IsKnownAs w i := by
  have hc := BitVec.eq_of_toNat_eq h
  refine ⟨?_, by rwa [canonicalWord_of_class5_or_class9 hc hc59]⟩
  rcases hc59 with rfl | rfl <;> rw [hc] <;> decide

/-- The four ways to decode a word: the classes 8, E and F go by a secondary decode; a word of any other class is an
instruction, whose word it is (30_encoding.md R94). -/
theorem decode_cases (w : Word) :
    (fieldClass w = 0x8#4 ∧ decode w = decodeGroup8 (fieldX w) (fieldY w) (fieldN w)) ∨
    (fieldClass w = 0xE#4 ∧ decode w = decodeGroupE (fieldX w) (fieldKK w)) ∨
    (fieldClass w = 0xF#4 ∧ decode w = decodeGroupF (fieldX w) (fieldKK w)) ∨
    ∃ i, decode w = .ok i ∧ IsKnownAs w i := by
  generalize hd : decode w = o
  unfold decode at hd
  split at hd <;> subst hd
  case h_9 h => exact .inl ⟨BitVec.eq_of_toNat_eq h, rfl⟩
  case h_15 h => exact .inr (.inl ⟨BitVec.eq_of_toNat_eq h, rfl⟩)
  case h_16 =>
    have h : (fieldClass w).toNat = (0xF#4).toNat := by
      have := (fieldClass w).isLt
      simp only [imp_false] at *
      change (fieldClass w).toNat = 15
      omega
    exact .inr (.inr (.inl ⟨BitVec.eq_of_toNat_eq h, rfl⟩))
  all_goals refine .inr (.inr (.inr ⟨_, rfl, ?_⟩))
  case h_1 h => exact isKnownAs_decodeGroup0 h
  case h_2 h => exact isKnownAs_nnn 0x1#4 h ⟨rfl, rfl⟩
  case h_3 h => exact isKnownAs_nnn 0x2#4 h ⟨rfl, rfl⟩
  case h_4 h => exact isKnownAs_xkk 0x3#4 h ⟨rfl, rfl⟩
  case h_5 h => exact isKnownAs_xkk 0x4#4 h ⟨rfl, rfl⟩
  case h_6 h => exact isKnownAs_xy 0x5#4 h ⟨rfl, rfl⟩
  case h_7 h => exact isKnownAs_xkk 0x6#4 h ⟨rfl, rfl⟩
  case h_8 h => exact isKnownAs_xkk 0x7#4 h ⟨rfl, rfl⟩
  case h_10 h => exact isKnownAs_xy 0x9#4 h ⟨rfl, rfl⟩
  case h_11 h => exact isKnownAs_nnn 0xA#4 h ⟨rfl, rfl⟩
  case h_12 h => exact isKnownAs_nnn 0xB#4 h ⟨rfl, rfl⟩
  case h_13 h => exact isKnownAs_xkk 0xC#4 h ⟨rfl, rfl⟩
  case h_14 h => exact isKnownAs_drw h

/-- The word of a decoded instruction is the decoded word in its canonical form. -/
theorem isWordOf_of_decode {w : Word} {i : Instr} (h : decode w = .ok i) : IsWordOf (canonicalWord w) i := by
  rcases decode_cases w with ⟨hc, hd⟩ | ⟨hc, hd⟩ | ⟨hc, hd⟩ | ⟨j, hd, -, hj⟩ <;> rw [hd] at h
  · exact (isWordOf_decodeGroup8 h).canonical (eq_wordXYN_of_class hc) hc
  · exact (isWordOf_decodeGroupE h).canonical (eq_wordXKK_of_class hc) hc
  · exact (isWordOf_decodeGroupF h).canonical (eq_wordXKK_of_class hc) hc
  · cases h; exact hj

/-- Settles O2: the word of what a word decodes to, `isWordOf_of_decode`. -/
theorem encodeOfDecodeIsCanonicalWord : Obligations.EncodeOfDecodeIsCanonicalWord := by
  unfold Obligations.EncodeOfDecodeIsCanonicalWord
  exact fun _ _ h => isWordOf_of_decode h

/-! ### The unknown words -/

theorem decodeGroup8_error_iff (x y n : Nibble) :
    (∃ u, decodeGroup8 x y n = .error u) ↔ n.toNat ∈ [0x8, 0x9, 0xA, 0xB, 0xC, 0xD, 0xF] := by
  have harms : (∃ u, decodeGroup8 x y n = .error u) ↔
      n ∉ [0x0#4, 0x1#4, 0x2#4, 0x3#4, 0x4#4, 0x5#4, 0x6#4, 0x7#4, 0xE#4] := by
    simp only [decodeGroup8, apply_ite (fun o : Except Unknown Instr => ∃ u, o = .error u)]
    simp
  have hrest : ∀ n : Nibble, n ∉ [0x0#4, 0x1#4, 0x2#4, 0x3#4, 0x4#4, 0x5#4, 0x6#4, 0x7#4, 0xE#4] ↔
      n.toNat ∈ [0x8, 0x9, 0xA, 0xB, 0xC, 0xD, 0xF] := by decide
  exact harms.trans (hrest n)

theorem decodeGroupE_error_iff (x : Nibble) (kk : Byte) :
    (∃ u, decodeGroupE x kk = .error u) ↔ kk.toNat ∉ [0x9E, 0xA1] := by
  simp only [decodeGroupE, apply_ite (fun o : Except Unknown Instr => ∃ u, o = .error u)]
  simp [← BitVec.toNat_inj]

theorem decodeGroupF_error_iff (x : Nibble) (kk : Byte) :
    (∃ u, decodeGroupF x kk = .error u) ↔
      kk.toNat ∉ [0x07, 0x0A, 0x15, 0x18, 0x1E, 0x29, 0x33, 0x55, 0x65] := by
  simp only [decodeGroupF, apply_ite (fun o : Except Unknown Instr => ∃ u, o = .error u)]
  simp [← BitVec.toNat_inj]

/-- Settles O3: by `decode_cases`, with the sub-opcodes that each secondary decode rejects. -/
theorem unknownOpcodesAreExactlyThese : Obligations.UnknownOpcodesAreExactlyThese := by
  unfold Obligations.UnknownOpcodesAreExactlyThese
  intro w
  have hclass : w.toNat / 0x1000 = (fieldClass w).toNat := (toNat_fieldClass w).symm
  rw [hclass, ← toNat_fieldN, ← toNat_fieldKK]
  rcases decode_cases w with ⟨hc, hd⟩ | ⟨hc, hd⟩ | ⟨hc, hd⟩ | ⟨i, hd, hc, -⟩ <;> rw [hd]
  · rw [decodeGroup8_error_iff, hc]; simp
  · rw [decodeGroupE_error_iff, hc]; simp
  · rw [decodeGroupF_error_iff, hc]; simp
  · simp [← BitVec.toNat_inj] at hc ⊢
    omega

/-! ### The word forms of the instructions -/

theorem IsWordOf.decode_eq {w : Word} {i : Instr} (h : IsWordOf w i) : decode w = .ok i :=
  h.2 ▸ decode_encode i h.1

theorem encodesNNN_of_isWordOf {c : Nibble} {mk : Addr → Instr} (h : ∀ nnn, IsWordOf (wordNNN c nnn) (mk nnn)) :
    EncodesNNN c.toNat mk := by
  intro w nnn hw
  rw [eq_wordNNN_of_toNat hw]
  exact (h nnn).decode_eq

theorem encodesXKK_of_isWordOf {c : Nibble} {mk : Nibble → Byte → Instr}
    (h : ∀ x kk, IsWordOf (wordXKK c x kk) (mk x kk)) : EncodesXKK c.toNat mk :=
  encodesXKK_of_decode fun x kk => (h x kk).decode_eq

theorem encodesXY_of_isWordOf {c n : Nibble} {mk : Nibble → Nibble → Instr}
    (h : ∀ x y, IsWordOf (wordXYN c x y n) (mk x y)) : EncodesXY c.toNat n.toNat mk := by
  intro w x y hw
  rw [eq_wordXYN_of_toNat hw]
  exact (h x y).decode_eq

theorem encodesX_of_isWordOf {c : Nibble} {kk : Byte} {mk : Nibble → Instr}
    (h : ∀ x, IsWordOf (wordXKK c x kk) (mk x)) : EncodesX c.toNat kk.toNat mk := by
  intro w x hw
  rw [eq_wordXKK_of_toNat hw]
  exact (h x).decode_eq

/-- Settles O4: each word is the encoder's word of the instruction named. -/
theorem specExampleWordsDecode : Obligations.SpecExampleWordsDecode := by
  unfold Obligations.SpecExampleWordsDecode
  exact ⟨rfl, rfl, rfl, rfl, rfl, rfl, rfl, rfl, rfl, rfl, rfl, rfl, rfl⟩

end Sys2Proof
end

section
/-! What an instruction does, said once: the state it leaves where it does not fault (`effect`), and that it takes
exactly the fault of the table (60_exceptions.md R302) or leaves that state. -/

namespace Sys2Proof.Machine

open Sys2Proof.Claims

/-- The state an instruction leaves where it does not fault (`exec_cases`). It is total: where an instruction always
faults, its value plays no part. -/
def effect (i : Instr) (s : State) : State :=
  match i with
  | .cls => { s.advance with disp := blankPlane, drawFlag := true }
  | .ret => { s with sp := ⟨s.sp.val - 1, by omega⟩, pc := s.stack[s.sp.val - 1]'(by omega) }
  | .sys _ => s.advance
  | .jp nnn => s.setPc (nnn.setWidth 16)
  | .call nnn =>
    { s with
      stack := s.stack.setIfInBounds s.sp.val (s.pc + 2#16)
      sp := ⟨min (s.sp.val + 1) 16, by omega⟩
      pc := nnn.setWidth 16 }
  | .seImm x kk => skipIf (s.getV x == kk) s
  | .sneImm x kk => skipIf (s.getV x != kk) s
  | .seReg x y => skipIf (s.getV x == s.getV y) s
  | .sneReg x y => skipIf (s.getV x != s.getV y) s
  | .skp x => skipIf (keyAt s (s.getV x) == some true) s
  | .sknp x => skipIf (keyAt s (s.getV x) == some false) s
  | .ldImm x kk => (s.setV x kk).advance
  | .addImm x kk => (s.setV x (addResult (s.getV x) kk)).advance
  | .ldReg x y => (s.setV x (s.getV y)).advance
  | .orReg x y => (s.setV x (s.getV x ||| s.getV y)).advance
  | .andReg x y => (s.setV x (s.getV x &&& s.getV y)).advance
  | .xorReg x y => (s.setV x (s.getV x ^^^ s.getV y)).advance
  | .addReg x y =>
    (s.writeRF x (addResult (s.getV x) (s.getV y)) (flagByte (addCarry (s.getV x) (s.getV y)))).advance
  | .sub x y =>
    (s.writeRF x (subResult (s.getV x) (s.getV y)) (flagByte (subNoBorrow (s.getV x) (s.getV y)))).advance
  | .shr x _ => (s.writeRF x (shrResult (s.getV x)) (flagByte (shrOut (s.getV x)))).advance
  | .subn x y =>
    (s.writeRF x (subResult (s.getV y) (s.getV x)) (flagByte (subNoBorrow (s.getV y) (s.getV x)))).advance
  | .shl x _ => (s.writeRF x (shlResult (s.getV x)) (flagByte (shlOut (s.getV x)))).advance
  | .ldI nnn => { s.advance with i := nnn }
  | .jpV0 nnn => s.setPc (BitVec.ofNat 16 (nnn.toNat + (s.getV 0x0#4).toNat))
  | .rnd x kk => { (s.setV x (Config.rnd s.draws &&& kk)).advance with draws := s.draws + 1 }
  | .drw x y n =>
    { s.advance with
      disp := (drawSprite (s.getV x) (s.getV y) (bytesAtI s n.toNat) s.disp).1
      v := setReg s.v 0xF#4 (flagByte (drawSprite (s.getV x) (s.getV y) (bytesAtI s n.toNat) s.disp).2)
      drawFlag := true }
  | .ldVDt x => (s.setV x s.dt).advance
  | .ldVK x => (lowestKey s).elim s fun k => (s.setV x (BitVec.ofNat 8 k)).advance
  | .ldDtV x => { s.advance with dt := s.getV x }
  | .ldStV x => { s.advance with st := s.getV x }
  | .addI x => { s.advance with i := BitVec.ofNat 12 (s.i.toNat + (s.getV x).toNat) }
  | .ldF x => { s.advance with i := BitVec.ofNat 12 (5 * (s.getV x).toNat) }
  | .ldB x => (s.storeAtI (decimalDigits (s.getV x))).advance
  | .ldMemV x => (s.storeAtI (regsUpTo s.v x)).advance
  | .ldVMem x => { s.advance with v := loadRegs s.v 0 (bytesAtI s (x.toNat + 1)) }

/-! ### The fault or the effect -/

/-- The instruction takes the fault of the table, or has its effect. -/
def FaultOrEffect (i : Instr) (s : State) : Prop :=
  (∃ cause info, faultOf i s = some (cause, info) ∧ exec i s = .next (raiseFault cause info s)) ∨
    (faultOf i s = none ∧ exec i s = .next (effect i s))

theorem faultOrEffect_of_guard {i : Instr} {s : State} {bad ok : Prop} [Decidable bad] [Decidable ok] {cause : Cause}
    {info : Nat} (hok : ok ↔ ¬bad) (hf : faultOf i s = if bad then some (cause, info) else none)
    (he : exec i s = if ok then .next (effect i s) else .next (raiseFault cause info s)) : FaultOrEffect i s := by
  by_cases h : bad
  · exact .inl ⟨cause, info, by rw [hf, if_pos h], by rw [he, if_neg (by simpa [hok] using h)]⟩
  · exact .inr ⟨by rw [hf, if_neg h], by rw [he, if_pos (hok.mpr h)]⟩

/-- The first address above 0xFFF that a range from an address on would touch is 0x1000. -/
theorem raiseMemOob_eq (b : Addr) (s : State) : raiseMemOob b s = raiseFault .memOob 0x1000 s := by
  have hmax : max b.toNat 0x1000 = 0x1000 := by omega
  rw [raiseMemOob, hmax]

theorem faultOrEffect_of_memCheck {i : Instr} {s : State} {bad ok : Prop} [Decidable bad] [Decidable ok]
    (hok : ok ↔ ¬bad) (hf : faultOf i s = if bad then some (.memOob, 0x1000) else none)
    (he : exec i s = if ok then .next (effect i s) else .next (raiseMemOob s.i s)) : FaultOrEffect i s :=
  faultOrEffect_of_guard hok hf (by rw [he, raiseMemOob_eq])

theorem faultOrEffect_ret (s : State) : FaultOrEffect .ret s := by
  by_cases h : 1 ≤ s.sp.val
  · exact .inr ⟨if_neg (by omega), dif_pos h⟩
  · have h0 : s.sp.val = 0 := by omega
    exact .inl ⟨_, _, if_pos h0, by rw [← h0]; exact dif_neg h⟩

theorem faultOrEffect_call (nnn : Addr) (s : State) : FaultOrEffect (.call nnn) s := by
  by_cases h : s.sp.val ≤ 15
  · have hstack : s.stack.set s.sp.val (s.pc + 2#16) (by omega) = s.stack.setIfInBounds s.sp.val (s.pc + 2#16) := by
      ext k hk
      simp [Vector.getElem_set, Vector.getElem_setIfInBounds]
    have hsp : min (s.sp.val + 1) 16 = s.sp.val + 1 := by omega
    exact .inr ⟨if_neg (by omega), (dif_pos h).trans (by simp only [effect, hstack, hsp])⟩
  · have h16 : s.sp.val = 16 := by omega
    exact .inl ⟨_, _, if_pos h16, by rw [← h16]; exact dif_neg h⟩

theorem keyAt_of_le {s : State} {k : Byte} (h : k.toNat ≤ 0xF) :
    keyAt s k = some (s.key[k.toNat]'(by omega)) := by
  simp [keyAt]

theorem keyAt_of_gt {s : State} {k : Byte} (h : 0xF < k.toNat) : keyAt s k = none := by
  simp [keyAt]; omega

theorem faultOrEffect_skp (x : Nibble) (s : State) : FaultOrEffect (.skp x) s := by
  by_cases h : (s.getV x).toNat ≤ 0xF
  · exact .inr ⟨if_neg (by omega), by simp [exec, execSkp, effect, keyAt_of_le h]⟩
  · exact .inl ⟨_, _, if_pos (by omega), by simp [exec, execSkp, keyAt_of_gt (Nat.lt_of_not_le h)]⟩

theorem faultOrEffect_sknp (x : Nibble) (s : State) : FaultOrEffect (.sknp x) s := by
  by_cases h : (s.getV x).toNat ≤ 0xF
  · exact .inr ⟨if_neg (by omega), by simp [exec, execSknp, effect, keyAt_of_le h]⟩
  · exact .inl ⟨_, _, if_pos (by omega), by simp [exec, execSknp, keyAt_of_gt (Nat.lt_of_not_le h)]⟩

theorem faultOrEffect_ldVK (x : Nibble) (s : State) : FaultOrEffect (.ldVK x) s := by
  refine .inr ⟨rfl, ?_⟩
  cases h : lowestKey s <;> simp [exec, execLdVK, effect, h]

/-- Every instruction, in every state, takes exactly the fault of the table or has its effect. -/
theorem exec_cases (i : Instr) (s : State) : FaultOrEffect i s := by
  cases i with
  | ret => exact faultOrEffect_ret s
  | call nnn => exact faultOrEffect_call nnn s
  | skp x => exact faultOrEffect_skp x s
  | sknp x => exact faultOrEffect_sknp x s
  | ldVK x => exact faultOrEffect_ldVK x s
  | addI x => exact faultOrEffect_of_guard Nat.not_lt.symm rfl rfl
  | ldF x => exact faultOrEffect_of_guard Nat.not_lt.symm rfl rfl
  | ldB x => exact faultOrEffect_of_memCheck (by rw [memCheck_iff]; omega) rfl rfl
  | ldMemV x => exact faultOrEffect_of_memCheck (by rw [memCheck_iff]; omega) rfl rfl
  | ldVMem x => exact faultOrEffect_of_memCheck (by rw [memCheck_iff]; omega) rfl rfl
  | drw x y n =>
    refine faultOrEffect_of_memCheck ?_ rfl rfl
    have := s.i.isLt
    rw [Bool.or_eq_true, memCheck_iff, decide_eq_true_eq]; omega
  | _ => exact .inr ⟨rfl, rfl⟩

theorem exec_of_faultOf_none {i : Instr} {s : State} (h : faultOf i s = none) : exec i s = .next (effect i s) := by
  rcases exec_cases i s with ⟨c, n, hf, -⟩ | ⟨-, he⟩
  · rw [h] at hf; cases hf
  · exact he

theorem exec_of_faultOf_some {i : Instr} {s : State} {cause : Cause} {info : Nat}
    (h : faultOf i s = some (cause, info)) : exec i s = .next (raiseFault cause info s) := by
  rcases exec_cases i s with ⟨c, n, hf, he⟩ | ⟨hf, -⟩
  · rw [h] at hf; cases hf; exact he
  · rw [h] at hf; cases hf

/-- A next state of execute is fault entry for the table's fault, or the effect. -/
theorem exec_next_cases {i : Instr} {s t : State} (h : exec i s = .next t) :
    (∃ cause info, faultOf i s = some (cause, info) ∧ t = raiseFault cause info s) ∨
      (faultOf i s = none ∧ t = effect i s) := by
  rcases exec_cases i s with ⟨c, n, hf, he⟩ | ⟨hf, he⟩ <;> rw [he] at h <;> cases h
  · exact .inl ⟨c, n, hf, rfl⟩
  · exact .inr ⟨hf, rfl⟩

theorem takesFault_raiseFault (cause : Cause) (info : Nat) (s : State) :
    TakesFault cause info s (raiseFault cause info s) :=
  ⟨rfl, fun _ => rfl⟩

/-- The answer of an instruction whose fault the table gives. -/
theorem exec_takesFault {i : Instr} {s : State} {cause : Cause} {info : Nat}
    (h : faultOf i s = some (cause, info)) : ∃ t, exec i s = .next t ∧ TakesFault cause info s t :=
  ⟨_, exec_of_faultOf_some h, takesFault_raiseFault cause info s⟩

/-- Every fault of the table has a cause. -/
theorem faultOf_cause_ne_none {i : Instr} {s : State} {cause : Cause} {info : Nat}
    (h : faultOf i s = some (cause, info)) : cause ≠ .none := by
  unfold faultOf at h
  split at h
  case h_11 => cases h
  all_goals
    split at h <;> cases h
    decide

/-- Settles O12: an instruction takes its fault or has its effect, and answers a next state either way. -/
theorem execNeverRefuses : Obligations.ExecNeverRefuses := by
  unfold Obligations.ExecNeverRefuses
  intro i s
  rcases exec_cases i s with ⟨_, _, -, he⟩ | ⟨-, he⟩ <;> exact ⟨_, he⟩

/-! ### What the effect leaves alone -/

/-- The keyboard wait leaves the state, or writes one register. -/
theorem effect_ldVK_cases (x : Nibble) (s : State) :
    effect (.ldVK x) s = s ∨ ∃ b, effect (.ldVK x) s = (s.setV x b).advance := by
  cases h : lowestKey s with
  | none => exact .inl (by simp [effect, h])
  | some k => exact .inr ⟨BitVec.ofNat 8 k, by simp [effect, h]⟩

/-- No effect writes a field that only the fetch, the scheduler and the host write. -/
theorem sameOutsideProgram_effect (i : Instr) (s : State) : SameOutsideProgram s (effect i s) := by
  cases i with
  | ldVK x =>
    rcases effect_ldVK_cases x s with e | ⟨b, e⟩ <;> rw [e] <;> exact ⟨rfl, rfl, rfl, rfl, rfl, rfl, rfl, rfl⟩
  | _ => exact ⟨rfl, rfl, rfl, rfl, rfl, rfl, rfl, rfl⟩

end Sys2Proof.Machine
end

section
/-! Proofs of the whole-machine rules of execute (10_state.md, 20_memory.md): which fields each instruction may change,
and the pc it leaves. Each is a case split of `effect` over the instructions. -/

namespace Sys2Proof.Machine

open Sys2Proof.Claims

@[simp] theorem raiseFault_getV (c : Cause) (n : Nat) (s : State) (x : Nibble) :
    (raiseFault c n s).getV x = s.getV x := rfl

/-- The effect leaves every register that R21's table does not give the instruction. -/
theorem getV_effect_of_not_mayWriteReg {i : Instr} {y : Nibble} (h : ¬mayWriteReg i y) (s : State) :
    (effect i s).getV y = s.getV y := by
  cases i with
  | ldImm x | addImm x | ldReg x | orReg x | andReg x | xorReg x | rnd x | ldVDt x =>
    exact (getV_setV s x y _).trans (if_neg h)
  | ldVK x =>
    rcases effect_ldVK_cases x s with e | ⟨b, e⟩ <;> rw [e]
    exact (getV_setV s x y b).trans (if_neg h)
  | addReg x | sub x | shr x | subn x | shl x =>
    obtain ⟨hx, hF⟩ := not_or.mp h
    exact (getV_writeRF s x y _ _).trans ((if_neg hF).trans (if_neg hx))
  | drw => exact (getV_of_setReg rfl y).trans (if_neg h)
  | ldVMem x =>
    have hy : ¬y.toNat < x.toNat + 1 := fun hlt => h (Nat.le_of_lt_succ hlt)
    exact (getElem_loadRegs _ s.v 0 y.toNat y.isLt).trans (dif_neg (by simpa [bytesAtI] using hy))
  | _ => rfl

/-- Settles O20: neither fault entry nor the effect changes a register outside R21's table. -/
theorem registersChangeOnlyAsTheTableSays : Obligations.RegistersChangeOnlyAsTheTableSays := by
  unfold Obligations.RegistersChangeOnlyAsTheTableSays
  intro i s t y h hne
  by_contra hw
  rcases exec_next_cases h with ⟨c, n, -, rfl⟩ | ⟨-, rfl⟩
  · exact hne rfl
  · exact hne (getV_effect_of_not_mayWriteReg hw s)

/-- Settles O21: CLS and DRW set the flag; every other effect leaves both fields. -/
theorem onlyDisplayInstructionsChangeThePlane : Obligations.OnlyDisplayInstructionsChangeThePlane := by
  unfold Obligations.OnlyDisplayInstructionsChangeThePlane
  intro i s t h hne
  rcases exec_next_cases h with ⟨c, n, -, rfl⟩ | ⟨-, rfl⟩
  · exact absurd hne (by simp)
  · cases i with
    | cls => exact ⟨.inl rfl, rfl⟩
    | drw x y n => exact ⟨.inr ⟨x, y, n, rfl⟩, rfl⟩
    | ldVK x => rcases effect_ldVK_cases x s with e | ⟨b, e⟩ <;> exact absurd hne (by simp [e])
    | _ => exact absurd hne (by simp [effect])

/-- Only the two stores change memory. -/
theorem mem_effect_of_not_store {i : Instr} (hB : ∀ x, i ≠ .ldB x) (hV : ∀ x, i ≠ .ldMemV x) (s : State) :
    (effect i s).mem = s.mem := by
  cases i with
  | ldB x => exact absurd rfl (hB x)
  | ldMemV x => exact absurd rfl (hV x)
  | ldVK x => rcases effect_ldVK_cases x s with e | ⟨b, e⟩ <;> simp [e]
  | _ => rfl

/-- An address where a written range reads other than before lies in the range. -/
theorem mem_range_of_readByte_ne {bs : List Byte} {m : List Host.Cell} {base a : Nat}
    (h : readByte (writeBytes m base bs) a ≠ readByte m a) : base ≤ a ∧ a < base + bs.length := by
  by_contra hout
  exact h (readByte_writeBytes_outside bs m base (by omega))

theorem ldB_in_range {x : Nibble} {s : State} (h : faultOf (.ldB x) s = none) : s.i.toNat + 2 ≤ 0xFFF := by
  simpa [faultOf] using h

theorem ldMemV_in_range {x : Nibble} {s : State} (h : faultOf (.ldMemV x) s = none) :
    s.i.toNat + x.toNat ≤ 0xFFF := by
  simpa [faultOf] using h

/-- Settles O22: the range written is I to I + 2 or I to I + X, and without a fault it ends at 0xFFF at most. -/
theorem onlyStoresChangeMemory : Obligations.OnlyStoresChangeMemory := by
  unfold Obligations.OnlyStoresChangeMemory
  intro i s t a h hne
  rcases exec_next_cases h with ⟨c, n, -, rfl⟩ | ⟨hf, rfl⟩
  · exact absurd rfl hne
  · by_cases hB : ∃ x, i = .ldB x
    · obtain ⟨x, rfl⟩ := hB
      have hr := mem_range_of_readByte_ne hne
      have := ldB_in_range hf
      simp only [decimalDigits, List.length_cons, List.length_nil] at hr
      exact .inl ⟨x, rfl, by omega, by omega, by omega⟩
    · by_cases hV : ∃ x, i = .ldMemV x
      · obtain ⟨x, rfl⟩ := hV
        have hr := mem_range_of_readByte_ne hne
        have := ldMemV_in_range hf
        rw [length_regsUpTo] at hr
        exact .inr ⟨x, rfl, by omega, by omega, by omega⟩
      · have hsame := mem_effect_of_not_store (not_exists.mp hB) (not_exists.mp hV) s
        exact absurd (congrArg (readByte · a) hsame) hne

/-- Settles O23: fault entry changes none of these fields, and each effect only its own. -/
theorem specialRegistersHaveTheirOwnWriters : Obligations.SpecialRegistersHaveTheirOwnWriters := by
  unfold Obligations.SpecialRegistersHaveTheirOwnWriters
  intro i s t h
  rcases exec_next_cases h with ⟨c, n, -, rfl⟩ | ⟨-, rfl⟩
  · simp
  · cases i with
    | ldVK x => rcases effect_ldVK_cases x s with e | ⟨b, e⟩ <;> simp [e]
    | _ => simp [effect]

/-! ### The pc an instruction leaves -/

/-- A skip's pc, for the Boolean form of its condition. -/
theorem skipPc_skipIf {b : Bool} {cond : Prop} (h : b = true ↔ cond) (s : State) :
    SkipPc cond s (skipIf b s).pc :=
  ⟨fun hc => if_pos (h.mpr hc), fun hc => if_neg (mt h.mp hc)⟩

theorem skp_in_range {x : Nibble} {s : State} (h : faultOf (.skp x) s = none) : (s.getV x).toNat ≤ 0xF := by
  simpa [faultOf] using h

theorem ret_in_range {s : State} (h : faultOf .ret s = none) : 1 ≤ s.sp.val := by
  have : s.sp.val ≠ 0 := by simpa [faultOf] using h
  omega

/-- A key skip tests the key that VX names. -/
theorem keyAt_beq_some_iff {s : State} {k : Byte} {j : Fin 16} (h : k.toNat = j.val) (b : Bool) :
    (keyAt s k == some b) = true ↔ s.key[j] = b := by
  rw [keyAt_of_le (by omega)]
  simp [h]

theorem firstTrue_ne_none_of_mem : ∀ {l : List Bool} {k : Nat}, true ∈ l → firstTrue k l ≠ none
  | true :: l, k, _ => by simp [firstTrue]
  | false :: l, k, h => by simpa [firstTrue] using firstTrue_ne_none_of_mem (k := k + 1) (by simpa using h)

theorem exists_lowestKey_of_not_noKey {s : State} (h : ¬NoKey s) : ∃ k, lowestKey s = some k := by
  obtain ⟨k, hk⟩ := not_forall.mp h
  have hmem : true ∈ s.key.toList := by
    have hpressed : s.key[k] = true := by simpa using hk
    rw [Vector.mem_toList_iff, ← hpressed]
    exact Vector.getElem_mem _
  exact Option.ne_none_iff_exists'.mp (firstTrue_ne_none_of_mem hmem)

theorem toNat_setWidth_addr (nnn : Addr) : (nnn.setWidth 16).toNat = nnn.toNat := by
  have := nnn.isLt
  rw [BitVec.toNat_setWidth]; omega

/-- The pc of the effect is the one that R25 gives. -/
theorem pcAfter_effect {i : Instr} {s : State} (hf : faultOf i s = none) : PcAfter i s (effect i s).pc := by
  cases i with
  | jp nnn | call nnn => exact toNat_setWidth_addr nnn
  | jpV0 nnn =>
    have := nnn.isLt
    have := (s.getV 0#4).isLt
    exact (BitVec.toNat_ofNat _ _).trans (Nat.mod_eq_of_lt (by omega))
  | ret =>
    have := ret_in_range hf
    exact ⟨⟨s.sp.val - 1, by omega⟩, (Nat.sub_add_cancel this).symm, rfl⟩
  | seImm x kk => exact skipPc_skipIf beq_iff_eq s
  | sneImm x kk => exact skipPc_skipIf bne_iff_ne s
  | seReg x y => exact skipPc_skipIf beq_iff_eq s
  | sneReg x y => exact skipPc_skipIf bne_iff_ne s
  | skp x | sknp x =>
    have := skp_in_range hf
    exact ⟨⟨(s.getV x).toNat, by omega⟩, rfl, skipPc_skipIf (keyAt_beq_some_iff rfl _) s⟩
  | ldVK x =>
    refine ⟨fun h => ?_, fun h => ?_⟩
    · simp [effect, lowestKey_eq_none h]
    · obtain ⟨k, hk⟩ := exists_lowestKey_of_not_noKey h
      simp [effect, hk]
  | _ => rfl

end Sys2Proof.Machine
end

section
/-! Proofs about the timers (60_exceptions.md R322 to R324): one tick, one accounting, and accountings in a row. -/

namespace Sys2Proof.Machine

open Sys2Proof.Claims

theorem eq_one_iff_toNat (b : Byte) : b = 1#8 ↔ b.toNat = 1 := by
  rw [← BitVec.toNat_inj]
  rfl

/-- Settles O17, by `toNat_timerDown` for both timers. -/
theorem tickCountsBothTimersDown : Obligations.TickCountsBothTimersDown := by
  unfold Obligations.TickCountsBothTimersDown
  intro s
  refine ⟨toNat_timerDown s.dt, toNat_timerDown s.st, ?_, rfl⟩
  rw [tick_events]
  by_cases h : s.st.toNat = 1
  · rw [if_pos h, if_pos ((eq_one_iff_toNat _).mpr h)]
  · rw [if_neg h, if_neg (mt (eq_one_iff_toNat _).mp h), List.append_nil]

/-- t is s after n ticks, whatever acc: both timers fell by n, floored at 0, one TONE was emitted exactly where ST
reached 0 within the n ticks, and nothing else changed. -/
structure AfterTicks (n : Nat) (s t : State) : Prop where
  dt : t.dt.toNat = s.dt.toNat - n
  st : t.st.toNat = s.st.toNat - n
  events : t.events = s.events ++ (if 1 ≤ s.st.toNat ∧ s.st.toNat ≤ n then [Event.tone 1000 50] else [])
  frame : t = { s with acc := t.acc, dt := t.dt, st := t.st, events := t.events }

theorem AfterTicks.refl (s : State) : AfterTicks 0 s s :=
  ⟨rfl, rfl, by rw [if_neg (by omega), List.append_nil], rfl⟩

/-- ST reaches 0 within the first n ticks, within the next m, or in neither. -/
theorem AfterTicks.trans {n m : Nat} {s t u : State} (hst : AfterTicks n s t) (htu : AfterTicks m t u) :
    AfterTicks (n + m) s u := by
  refine ⟨?_, ?_, ?_, ?_⟩
  · rw [htu.dt, hst.dt]; omega
  · rw [htu.st, hst.st]; omega
  · rw [htu.events, hst.events, hst.st, List.append_assoc]
    congr 1
    by_cases h1 : 1 ≤ s.st.toNat ∧ s.st.toNat ≤ n
    · rw [if_pos h1, if_neg (by omega), if_pos (by omega), List.append_nil]
    · rw [if_neg h1, List.nil_append]
      exact if_congr (by omega) rfl rfl
  · exact htu.frame.trans (by rw [hst.frame])

/-- One accounting: acc + 60 is divided into ticks and the remainder. -/
theorem timerAccount_closed {s : State} (hF : 1 ≤ s.clockHz) : ∃ t, timerAccount s = .next t ∧
    t.acc = (s.acc + 60) % s.clockHz ∧ AfterTicks ((s.acc + 60) / s.clockHz) s t := by
  obtain ⟨hacc, hdt, hst, hev⟩ := timerLoop_closed (s.acc + 60) { s with acc := s.acc + 60 } hF (Nat.le_refl _)
  exact ⟨_, timerAccount_of_pos hF, hacc, hdt, hst, hev, timerAccount_frame (timerAccount_of_pos hF)⟩

/-- Settles O18, by `timerAccount_closed`. -/
theorem timerAccountingInClosedForm : Obligations.TimerAccountingInClosedForm := by
  unfold Obligations.TimerAccountingInClosedForm
  intro s hF
  obtain ⟨t, ht, hacc, hticks⟩ := timerAccount_closed hF
  have hclock : t.clockHz = s.clockHz := by rw [hticks.frame]
  have hlt : t.acc < t.clockHz := by
    rw [hacc, hclock]
    exact Nat.mod_lt _ hF
  exact ⟨t, ht, hacc, hlt, hticks.dt, hticks.st, hticks.events, hticks.frame⟩

/-- k accountings in a row: the remainder of each is carried into the next. -/
theorem afterAccounts_closed : ∀ (k : Nat) {s : State}, 1 ≤ s.clockHz → s.acc < s.clockHz →
    ∃ t, afterAccounts k s = .next t ∧ t.acc = (s.acc + 60 * k) % s.clockHz ∧
      AfterTicks ((s.acc + 60 * k) / s.clockHz) s t
  | 0, s, _, hlt => by
    rw [Nat.mul_zero, Nat.add_zero, Nat.mod_eq_of_lt hlt, Nat.div_eq_of_lt hlt]
    exact ⟨s, rfl, rfl, .refl s⟩
  | k + 1, s, hF, hlt => by
    obtain ⟨t, ht, hacc, hticks⟩ := timerAccount_closed hF
    have hclock : t.clockHz = s.clockHz := by rw [hticks.frame]
    obtain ⟨u, hu, huacc, huticks⟩ := afterAccounts_closed k (s := t) (hclock ▸ hF)
      (by rw [hacc, hclock]; exact Nat.mod_lt _ hF)
    rw [hacc, hclock] at huacc huticks
    have hsum : s.acc + 60 * (k + 1) =
        s.clockHz * ((s.acc + 60) / s.clockHz) + ((s.acc + 60) % s.clockHz + 60 * k) := by
      have := Nat.div_add_mod (s.acc + 60) s.clockHz
      omega
    refine ⟨u, by rw [afterAccounts, ht]; exact hu, ?_, ?_⟩
    · rw [huacc, hsum, Nat.mul_add_mod]
    · rw [hsum, Nat.mul_add_div hF]
      exact hticks.trans huticks

/-- Settles O19, by `afterAccounts_closed`. -/
theorem timerAccountingsCarryTheRemainder : Obligations.TimerAccountingsCarryTheRemainder := by
  unfold Obligations.TimerAccountingsCarryTheRemainder
  intro k s hF hlt
  obtain ⟨t, ht, hacc, hticks⟩ := afterAccounts_closed k hF hlt
  exact ⟨t, ht, hacc, hticks.dt, hticks.st, hticks.events, hticks.frame⟩

end Sys2Proof.Machine
end

section
/-! Proofs about the step (40_step.md R120 to R128): what a cycle runs, which faults it takes, what it leaves alone, and
that it does not depend on the events emitted before. -/

namespace Sys2Proof.Machine

open Sys2Proof.Claims

/-! ### The cases of a cycle -/

theorem cycle_of_fetchOob {s : State} (h : 0xFFE < s.pc.toNat) :
    cycle s = .next (raiseFault .fetchOob s.pc.toNat s) :=
  if_neg (by simpa [fetchCheck] using h)

theorem cycle_of_fetch {s : State} (h : s.pc.toNat ≤ 0xFFE) :
    cycle s = finishCycle (execWord (fetch16 s) { s with opcode := fetch16 s }) :=
  if_pos (by simpa [fetchCheck] using h)

theorem execWord_of_ok {op : Word} {i : Instr} (h : decode op = .ok i) (s : State) : execWord op s = exec i s := by
  simp [execWord, h]

theorem execWord_of_error {op : Word} {e : Unknown} (h : decode op = .error e) (s : State) :
    execWord op s = .next (s.emit (.unknownOpcode s.pc op)).advance := by
  simp [execWord, h, execUnknown]

/-- A next state of a decoded and executed word: fault entry for the decoded instruction's fault, the instruction's
effect, or the diagnostic of an unknown opcode. -/
theorem execWord_next_cases {op : Word} {s t : State} (h : execWord op s = .next t) :
    (∃ i cause info, decode op = .ok i ∧ faultOf i s = some (cause, info) ∧ t = raiseFault cause info s) ∨
    (∃ i, decode op = .ok i ∧ faultOf i s = none ∧ t = effect i s) ∨
    (∃ e, decode op = .error e ∧ t = (s.emit (.unknownOpcode s.pc op)).advance) := by
  cases hd : decode op with
  | ok i =>
    rw [execWord_of_ok hd] at h
    rcases exec_next_cases h with ⟨c, n, hf, rfl⟩ | ⟨hf, rfl⟩
    · exact .inl ⟨i, c, n, rfl, hf, rfl⟩
    · exact .inr (.inl ⟨i, rfl, hf, rfl⟩)
  | error e =>
    rw [execWord_of_error hd] at h
    cases h
    exact .inr (.inr ⟨e, rfl, rfl⟩)

theorem finishCycle_of_halted {u : State} (h : u.halted = true) : finishCycle (.next u) = .next u := by
  simp [finishCycle, h]

theorem finishCycle_of_not_halted {u : State} (h : u.halted = false) : finishCycle (.next u) = timerAccount u := by
  simp [finishCycle, h]

/-- Settles O6: the running core's turn is a cycle, whose fetch is legal and whose word is the instruction. -/
theorem stepRunsTheDecodedInstruction : Obligations.StepRunsTheDecodedInstruction := by
  unfold Obligations.StepRunsTheDecodedInstruction
  intro s i hh hr hpc hd
  rw [step_of_running hh hr, cycle_of_fetch hpc, execWord_of_ok hd]
  rfl

/-- Settles O7: the diagnostic leaves the core running, so its state is accounted. -/
theorem unknownOpcodeIsReportedNoOp : Obligations.UnknownOpcodeIsReportedNoOp := by
  unfold Obligations.UnknownOpcodeIsReportedNoOp
  intro s e hh hr hpc hd
  rw [step_of_running hh hr, cycle_of_fetch hpc, execWord_of_error hd]
  exact finishCycle_of_not_halted hh

/-- Settles O8: the cycle ends at the fetch check. -/
theorem fetchOutOfBoundsFaults : Obligations.FetchOutOfBoundsFaults := by
  unfold Obligations.FetchOutOfBoundsFaults
  intro s hh hr hpc
  exact ⟨_, by rw [step_of_running hh hr, cycle_of_fetchOob hpc], takesFault_raiseFault _ _ s⟩

/-- Settles O9, by the two guards of the scheduler and of SINGLE_STEP. -/
theorem haltedOrPausedCoreTakesNoStep : Obligations.HaltedOrPausedCoreTakesNoStep := by
  unfold Obligations.HaltedOrPausedCoreTakesNoStep
  refine fun s => ⟨fun hh => ⟨by simp [step, schedule, hh], ?_⟩, fun hh hr => by simp [step, schedule, hh, hr]⟩
  cases hr : s.runMode <;> simp [hostOp, hostSingleStep, hr, hh]

/-- Settles O25: without a fault execute leaves the effect, whose pc is that of R25; the timer accounting keeps it. -/
theorem everyOperationAdvancesPcItself : Obligations.EveryOperationAdvancesPcItself := by
  unfold Obligations.EveryOperationAdvancesPcItself
  refine ⟨fun i s t _ h hgoes => ?_, fun i s t u hh hr hpc hd hu ht => ?_⟩
  · rcases exec_next_cases h with ⟨c, n, -, rfl⟩ | ⟨hf, rfl⟩
    · cases hgoes
    · refine ⟨pcAfter_effect hf, ?_⟩
      rintro x rfl hkey
      simp [effect, lowestKey_eq_none hkey]
  · rw [step_of_running hh hr] at ht
    rcases cycle_cases ht with ⟨hgt, -⟩ | ⟨-, u', hu', hend⟩
    · omega
    · have he : u' = u := by
        rw [execWord_of_ok hd, hu] at hu'
        cases hu'
        rfl
      subst he
      rcases hend with ⟨-, rfl⟩ | ⟨-, hacc⟩
      · rfl
      · rw [timerAccount_frame hacc]

/-! ### The faults of a step -/

/-- The fault of an instruction does not depend on the opcode register. -/
theorem faultOf_opcode (i : Instr) (s : State) (w : Word) : faultOf i { s with opcode := w } = faultOf i s := by
  cases i <;> rfl

/-- Settles O10: a halted next state comes from the fetch check or from fault entry; every other way leaves the core
running. -/
theorem faultsArePrecise : Obligations.FaultsArePrecise := by
  unfold Obligations.FaultsArePrecise
  rintro s t ⟨hh, hr, -⟩ ht hhalt
  rw [step_of_running hh hr] at ht
  rcases cycle_cases ht with ⟨hpc, rfl⟩ | ⟨hpc, u, hu, hend⟩
  · rw [if_neg (by omega)]
    exact ⟨.fetchOob, s.pc.toNat, by decide, takesFault_raiseFault _ _ s⟩
  · rw [if_pos hpc]
    have hut : t = u ∧ u.halted = true := by
      rcases hend with ⟨huh, rfl⟩ | ⟨huh, hacc⟩
      · exact ⟨rfl, huh⟩
      · rw [timerAccount_frame hacc] at hhalt
        exact absurd hhalt (by simp [huh])
    obtain ⟨rfl, huh⟩ := hut
    rcases execWord_next_cases hu with ⟨i, c, n, -, hf, rfl⟩ | ⟨i, -, -, rfl⟩ | ⟨e, -, rfl⟩
    · exact ⟨c, n, faultOf_cause_ne_none hf, takesFault_raiseFault c n _⟩
    · obtain ⟨-, -, -, -, hsame, -⟩ := sameOutsideProgram_effect i { s with opcode := fetch16 s }
      rw [hsame, hh] at huh
      cases huh
    · rw [State.advance_halted, State.emit_halted, hh] at huh
      cases huh

/-- The end of a cycle that did not fault keeps the fault state. -/
theorem finishCycle_keeps_faultState {u : State} (hh : u.halted = false) (hF : 1 ≤ u.clockHz) :
    ∃ t, finishCycle (.next u) = .next t ∧ t.halted = false ∧ t.fault = u.fault := by
  obtain ⟨t, ht, -, hticks⟩ := timerAccount_closed hF
  exact ⟨t, by rw [finishCycle_of_not_halted hh, ht], by rw [hticks.frame]; exact hh, by rw [hticks.frame]⟩

/-- What the fault table says of a next state. -/
def FaultStateAs (s t : State) : Option (Cause × Nat) → Prop
  | some (cause, info) => t.halted = true ∧ t.fault = ⟨cause, s.pc, info⟩
  | none => t.halted = false ∧ t.fault = s.fault

theorem step_faultStateAs {s : State} (h : Runs s) : ∃ t, step s = .next t ∧ FaultStateAs s t (stepFaultOf s) := by
  obtain ⟨hh, hr, hF⟩ := h
  rw [step_of_running hh hr]
  by_cases hpc : 0xFFE < s.pc.toNat
  · rw [cycle_of_fetchOob hpc, stepFaultOf, if_pos hpc]
    exact ⟨_, rfl, rfl, rfl⟩
  · rw [cycle_of_fetch (by omega), stepFaultOf, if_neg hpc]
    cases hd : decode (fetch16 s) with
    | error e =>
      rw [execWord_of_error hd]
      exact finishCycle_keeps_faultState hh hF
    | ok i =>
      rw [execWord_of_ok hd]
      rcases exec_cases i { s with opcode := fetch16 s } with ⟨c, n, hf, he⟩ | ⟨hf, he⟩ <;>
        rw [he] <;> rw [faultOf_opcode] at hf <;> simp only [hf]
      · exact ⟨_, finishCycle_of_halted rfl, rfl, rfl⟩
      · obtain ⟨-, -, -, -, hhalt, hfault, hclock, -⟩ := sameOutsideProgram_effect i { s with opcode := fetch16 s }
        obtain ⟨t, ht, hth, htf⟩ := finishCycle_keeps_faultState (hhalt.trans hh) (hF.trans_eq hclock.symm)
        exact ⟨t, ht, hth, htf.trans hfault⟩

/-- Settles O11, by `step_faultStateAs`. -/
theorem stepFaultsExactlyAsTheTableSays : Obligations.StepFaultsExactlyAsTheTableSays := by
  unfold Obligations.StepFaultsExactlyAsTheTableSays
  refine ⟨fun s h => ?_, rfl⟩
  obtain ⟨t, ht, hfs⟩ := step_faultStateAs h
  refine ⟨t, ht, ?_⟩
  generalize stepFaultOf s = o at hfs
  cases o <;> exact hfs

/-! ### What a step leaves to the host -/

/-- The keys, the run mode and CLOCK_HZ are the same. -/
def SameHostOwned (s t : State) : Prop := t.key = s.key ∧ t.runMode = s.runMode ∧ t.clockHz = s.clockHz

theorem SameOutsideProgram.hostOwned {s t : State} (h : SameOutsideProgram s t) : SameHostOwned s t := by
  obtain ⟨hkey, -, -, hmode, -, -, hclock, -⟩ := h
  exact ⟨hkey, hmode, hclock⟩

theorem execWord_hostOwned {op : Word} {s t : State} (h : execWord op s = .next t) : SameHostOwned s t := by
  rcases execWord_next_cases h with ⟨i, c, n, -, -, rfl⟩ | ⟨i, -, -, rfl⟩ | ⟨e, -, rfl⟩
  · exact ⟨rfl, rfl, rfl⟩
  · exact (sameOutsideProgram_effect i s).hostOwned
  · exact ⟨rfl, rfl, rfl⟩

theorem cycle_hostOwned {s t : State} (h : cycle s = .next t) : SameHostOwned s t := by
  rcases cycle_cases h with ⟨-, rfl⟩ | ⟨-, u, hu, ⟨-, rfl⟩ | ⟨-, hacc⟩⟩
  · exact ⟨rfl, rfl, rfl⟩
  · exact execWord_hostOwned (s := { s with opcode := fetch16 s }) hu
  · have hsu : SameHostOwned s u := execWord_hostOwned (s := { s with opcode := fetch16 s }) hu
    rw [timerAccount_frame hacc]
    exact hsu

/-- Settles O24: `cycle_hostOwned` for the step, `sameOutsideProgram_effect` for execute. -/
theorem noStepChangesWhatTheHostOwns : Obligations.NoStepChangesWhatTheHostOwns := by
  unfold Obligations.NoStepChangesWhatTheHostOwns
  refine ⟨fun s t h => ?_, fun i s t h => ?_⟩
  · obtain ⟨-, ⟨-, rfl⟩ | ⟨-, hc⟩⟩ := step_cases h
    · exact ⟨rfl, rfl, rfl⟩
    · exact cycle_hostOwned hc
  · rcases exec_next_cases h with ⟨c, n, -, rfl⟩ | ⟨-, rfl⟩
    · exact ⟨rfl, rfl⟩
    · obtain ⟨-, hop, hacc, -⟩ := sameOutsideProgram_effect i s
      exact ⟨hacc, hop⟩

end Sys2Proof.Machine
end

section
/-! Neither the events emitted before nor the run mode influence a cycle, and a cycle only adds events at its end
(10_state.md R45; 60_exceptions.md R325). -/

namespace Sys2Proof.Machine

open Sys2Proof.Claims

/-- The state with the run mode and the list of events replaced. -/
def reseat (m : RunMode) (es : List Event) (s : State) : State := { s with runMode := m, events := es }

/-- f answers t from s and adds the events `new`; from any other run mode and earlier events it answers the same, with
the same events added. -/
def AddsEvents (f : State → Host.Outcome State Fault Refusal) (s t : State) (new : List Event) : Prop :=
  t.events = s.events ++ new ∧ ∀ m es, f (reseat m es s) = .next (reseat m (es ++ new) t)

/-! ### The parts of a cycle -/

/-- The events of one tick: the tone where ST is 1 (60_exceptions.md R324). -/
def tickEvents (s : State) : List Event := if s.st = 1#8 then [.tone 1000 50] else []

theorem tick_events_eq_append (s : State) : (tick s).events = s.events ++ tickEvents s := by
  rw [tick_events, tickEvents]
  split <;> simp

theorem tick_reseat (m : RunMode) (es : List Event) (s : State) :
    tick (reseat m es s) = reseat m (es ++ tickEvents s) (tick s) := by
  by_cases h : s.st = 1#8 <;> simp [tick, reseat, tickEvents, h]

/-- Each turn of the timer loop adds its tick's events, whatever came before. -/
theorem exists_events_timerLoop : ∀ (n : Nat) (s : State), ∃ new, (timerLoop n s).events = s.events ++ new ∧
    ∀ m es, timerLoop n (reseat m es s) = reseat m (es ++ new) (timerLoop n s)
  | 0, s => ⟨[], by simp [timerLoop], fun m es => by simp [timerLoop]⟩
  | n + 1, s => by
    by_cases h : s.clockHz ≤ s.acc
    · obtain ⟨new, hnew, hloop⟩ := exists_events_timerLoop n (tick { s with acc := s.acc - s.clockHz })
      have hs : timerLoop (n + 1) s = timerLoop n (tick { s with acc := s.acc - s.clockHz }) := if_pos h
      refine ⟨tickEvents s ++ new, ?_, fun m es => ?_⟩
      · rw [hs, hnew, tick_events_eq_append, List.append_assoc]
        rfl
      · have hturn : timerLoop (n + 1) (reseat m es s) =
            timerLoop n (tick (reseat m es { s with acc := s.acc - s.clockHz })) := if_pos h
        rw [hturn, tick_reseat, hloop, hs, List.append_assoc]
        rfl
    · have hs : timerLoop (n + 1) s = s := if_neg h
      refine ⟨[], by rw [hs, List.append_nil], fun m es => ?_⟩
      rw [hs, List.append_nil]
      exact if_neg h

theorem exists_addsEvents_timerAccount {s t : State} (h : timerAccount s = .next t) :
    ∃ new, AddsEvents timerAccount s t new := by
  obtain ⟨hF, rfl⟩ := timerAccount_next h
  obtain ⟨new, hloop, hloop'⟩ := exists_events_timerLoop (s.acc + 60) { s with acc := s.acc + 60 }
  refine ⟨new, hloop, fun m es => ?_⟩
  rw [timerAccount_of_pos (by exact hF)]
  exact congrArg Host.Outcome.next (hloop' m es)

theorem faultOf_reseat (i : Instr) (m : RunMode) (es : List Event) (s : State) :
    faultOf i (reseat m es s) = faultOf i s := by
  cases i <;> rfl

theorem effect_reseat (i : Instr) (m : RunMode) (es : List Event) (s : State) :
    effect i (reseat m es s) = reseat m es (effect i s) := by
  cases i with
  | ldVK x =>
    have hkey : lowestKey (reseat m es s) = lowestKey s := rfl
    cases h : lowestKey s <;> simp only [effect, hkey, h] <;> rfl
  | _ => rfl

theorem exists_addsEvents_execWord {op : Word} {s t : State} (h : execWord op s = .next t) :
    ∃ new, AddsEvents (execWord op) s t new := by
  rcases execWord_next_cases h with ⟨i, c, n, hd, hf, rfl⟩ | ⟨i, hd, hf, rfl⟩ | ⟨e, hd, rfl⟩
  · refine ⟨[.fault c s.pc n], rfl, fun m es => ?_⟩
    rw [execWord_of_ok hd, exec_of_faultOf_some (by rw [faultOf_reseat]; exact hf)]
    rfl
  · obtain ⟨-, -, -, -, -, -, -, hev⟩ := sameOutsideProgram_effect i s
    refine ⟨[], by rw [hev, List.append_nil], fun m es => ?_⟩
    rw [execWord_of_ok hd, exec_of_faultOf_none (by rw [faultOf_reseat]; exact hf), effect_reseat, List.append_nil]
  · refine ⟨[.unknownOpcode s.pc op], rfl, fun m es => ?_⟩
    rw [execWord_of_error hd]
    rfl

/-- A cycle that answers next answers the same from any run mode and after any events, with the same events added. -/
theorem exists_addsEvents_cycle {s t : State} (h : cycle s = .next t) : ∃ new, AddsEvents cycle s t new := by
  rcases cycle_cases h with ⟨hpc, rfl⟩ | ⟨hpc, u, hu, hend⟩
  · exact ⟨[.fault .fetchOob s.pc s.pc.toNat], rfl, fun m es => by rw [cycle_of_fetchOob (by exact hpc)]; rfl⟩
  · obtain ⟨new, hnew, hu'⟩ := exists_addsEvents_execWord hu
    have hcycle : ∀ m es, cycle (reseat m es s) = finishCycle (.next (reseat m (es ++ new) u)) := fun m es => by
      rw [cycle_of_fetch (by exact hpc), ← hu' m es]
      rfl
    rcases hend with ⟨hhalt, rfl⟩ | ⟨hhalt, hacc⟩
    · exact ⟨new, hnew, fun m es => by rw [hcycle, finishCycle_of_halted (by exact hhalt)]⟩
    · obtain ⟨new', hnew', hacc'⟩ := exists_addsEvents_timerAccount hacc
      refine ⟨new ++ new', by rw [hnew', hnew, List.append_assoc], fun m es => ?_⟩
      rw [hcycle, finishCycle_of_not_halted (by exact hhalt), hacc', List.append_assoc]

/-- Settles O26: a waiting turn adds nothing; a cycle adds the same events whatever came before. -/
theorem emittedEventsNeverInfluenceAStep : Obligations.EmittedEventsNeverInfluenceAStep := by
  unfold Obligations.EmittedEventsNeverInfluenceAStep
  intro s t h
  obtain ⟨hh, ⟨hr, rfl⟩ | ⟨hr, hc⟩⟩ := step_cases h
  · exact ⟨[], (List.append_nil _).symm, fun es => by simp [step, schedule, withEvents, hh, hr]⟩
  · obtain ⟨new, hnew, hc'⟩ := exists_addsEvents_cycle hc
    obtain ⟨-, hmode, -⟩ := cycle_hostOwned hc
    refine ⟨new, hnew, fun es => ?_⟩
    rw [step_of_running (by exact hh) (by exact hr)]
    refine (hc' s.runMode es).trans ?_
    rw [← hmode]
    rfl

/-- Settles O57: SINGLE_STEP's cycle is the scheduler's, which does not look at the run mode. -/
theorem runControl : Obligations.RunControl := by
  unfold Obligations.RunControl
  refine fun s => ⟨rfl, rfl, fun hh hr t ht => ?_⟩
  rw [step_of_running (by exact hh) rfl] at ht
  obtain ⟨new, hnew, hc⟩ := exists_addsEvents_cycle ht
  have hs : s = reseat .paused s.events { s with runMode := .running } := by
    rw [reseat, ← hr]
  have hsingle : hostOp .singleStep s = cycle s := by simp [hostOp, hostSingleStep, hh, hr]
  rw [hsingle, hs, hc, ← hnew]
  rfl

end Sys2Proof.Machine
end

section
/-! Proofs of the invariant (10_state.md R24, R26; 20_memory.md R60; 60_exceptions.md R300, R326): it holds after
RESET, every part of a step and every host operation keep it, and so every reachable state meets it. -/

namespace Sys2Proof.Machine

open Sys2Proof.Claims

/-! ### The parts of a step -/

theorem skipPc_eq_or_eq {cond : Prop} {s : State} {p : Word} (h : SkipPc cond s p) :
    p = s.pc + 4#16 ∨ p = s.pc + 2#16 := by
  by_cases hc : cond
  · exact .inl (h.1 hc)
  · exact .inr (h.2 hc)

theorem toNat_add_le (p q : Word) : (p + q).toNat ≤ p.toNat + q.toNat := by
  rw [BitVec.toNat_add]
  exact Nat.mod_le _ _

theorem toNat_add_two_le {p : Word} (h : p.toNat ≤ 0xFFE) : (p + 2#16).toNat ≤ 0x1000 :=
  (toNat_add_le p 2#16).trans (Nat.add_le_add_right h 2)

theorem toNat_add_four_le {p : Word} (h : p.toNat ≤ 0xFFE) : (p + 4#16).toNat ≤ 0x1002 :=
  (toNat_add_le p 4#16).trans (Nat.add_le_add_right h 4)

/-- From a pc that can be fetched at, no instruction leaves a pc above 0x10FE, the largest target of JP V0 (R24). -/
theorem toNat_le_of_pcAfter {i : Instr} {s : State} {p : Word} (hpc : s.pc.toNat ≤ 0xFFE) (hstack : StackOk s)
    (h : PcAfter i s p) : p.toNat ≤ 0x10FE := by
  have hadd2 : p = s.pc + 2#16 → p.toNat ≤ 0x10FE := by
    rintro rfl
    exact (toNat_add_two_le hpc).trans (by decide)
  have hskip : ∀ cond, SkipPc cond s p → p.toNat ≤ 0x10FE := by
    intro cond hs
    rcases skipPc_eq_or_eq hs with rfl | e
    · exact (toNat_add_four_le hpc).trans (by decide)
    · exact hadd2 e
  cases i with
  | jp nnn | call nnn =>
    have hp : p.toNat = nnn.toNat := h
    omega
  | jpV0 nnn =>
    have hp : p.toNat = nnn.toNat + (s.getV 0#4).toNat := h
    omega
  | ret =>
    obtain ⟨k, -, rfl⟩ := h
    have := hstack k
    omega
  | seImm | sneImm | seReg | sneReg => exact hskip _ h
  | skp | sknp =>
    obtain ⟨k, -, hs⟩ := h
    exact hskip _ hs
  | ldVK x =>
    by_cases hk : NoKey s
    · rw [h.1 hk]; omega
    · exact hadd2 (h.2 hk)
  | _ => exact hadd2 h

/-- CALL pushes at most 0x1000 from a pc that can be fetched at; nothing else writes the stack (R26). -/
theorem stackOk_effect {s : State} (hpc : s.pc.toNat ≤ 0xFFE) (h : StackOk s) (i : Instr) : StackOk (effect i s) := by
  cases i with
  | call nnn =>
    intro k
    have hk := h k
    simp only [effect, Fin.getElem_fin, Vector.getElem_setIfInBounds] at hk ⊢
    split
    · exact toNat_add_two_le hpc
    · exact hk
  | ldVK x => rcases effect_ldVK_cases x s with e | ⟨b, e⟩ <;> rw [e] <;> exact h
  | _ => exact h

/-- The stores keep memory in canonical form, since without a fault their range ends at 0xFFF at most. -/
theorem memWf_effect {i : Instr} {s : State} (hf : faultOf i s = none) (h : Memory.wf s.mem = true) :
    Memory.wf (effect i s).mem = true := by
  by_cases hB : ∃ x, i = .ldB x
  · obtain ⟨x, rfl⟩ := hB
    have := ldB_in_range hf
    exact wf_writeBytes _ (by simp [decimalDigits]; omega) h
  · by_cases hV : ∃ x, i = .ldMemV x
    · obtain ⟨x, rfl⟩ := hV
      have := ldMemV_in_range hf
      exact wf_writeBytes _ (by rw [length_regsUpTo]; omega) h
    · rw [mem_effect_of_not_store (not_exists.mp hB) (not_exists.mp hV) s]
      exact h

theorem inv_effect {i : Instr} {s : State} (h : Inv s) (hpc : s.pc.toNat ≤ 0xFFE) (hf : faultOf i s = none) :
    Inv (effect i s) := by
  obtain ⟨-, -, -, -, hhalted, hfault, hclock, -⟩ := sameOutsideProgram_effect i s
  refine ⟨memWf_effect hf h.mem, toNat_le_of_pcAfter hpc h.stack (pcAfter_effect hf), stackOk_effect hpc h.stack i,
    ?_, hclock ▸ h.clock⟩
  rw [FaultStateOk, hhalted, hfault]
  exact h.fault

theorem inv_raiseFault {s : State} (h : Inv s) {cause : Cause} (hc : cause ≠ .none) (info : Nat) :
    Inv (raiseFault cause info s) :=
  ⟨h.mem, h.pc, h.stack, ⟨⟨fun _ => hc, fun _ => rfl⟩, fun e => by cases e⟩, h.clock⟩

theorem inv_opcode {s : State} (h : Inv s) (w : Word) : Inv { s with opcode := w } :=
  ⟨h.mem, h.pc, h.stack, h.fault, h.clock⟩

theorem inv_execWord {op : Word} {s t : State} (h : Inv s) (hpc : s.pc.toNat ≤ 0xFFE)
    (ht : execWord op s = .next t) : Inv t := by
  rcases execWord_next_cases ht with ⟨i, c, n, -, hf, rfl⟩ | ⟨i, -, hf, rfl⟩ | ⟨e, -, rfl⟩
  · exact inv_raiseFault h (faultOf_cause_ne_none hf) n
  · exact inv_effect h hpc hf
  · exact ⟨h.mem, (toNat_add_two_le hpc).trans (by decide), h.stack, h.fault, h.clock⟩

theorem inv_timerAccount {s t : State} (h : Inv s) (ht : timerAccount s = .next t) : Inv t := by
  rw [timerAccount_frame ht]
  exact ⟨h.mem, h.pc, h.stack, h.fault, h.clock⟩

/-- A cycle keeps the invariant. -/
theorem inv_cycle {s t : State} (h : Inv s) (ht : cycle s = .next t) : Inv t := by
  rcases cycle_cases ht with ⟨-, rfl⟩ | ⟨hpc, u, hu, hend⟩
  · exact inv_raiseFault h (by decide) _
  · have hinv : Inv u := inv_execWord (inv_opcode h (fetch16 s)) hpc hu
    rcases hend with ⟨-, rfl⟩ | ⟨-, hacc⟩
    · exact hinv
    · exact inv_timerAccount hinv hacc

theorem inv_step {s t : State} (h : Inv s) (ht : step s = .next t) : Inv t := by
  obtain ⟨-, ⟨-, rfl⟩ | ⟨-, hc⟩⟩ := step_cases ht
  · exact h
  · exact inv_cycle h hc

/-- Settles O14: a turn waits or performs a cycle, and `inv_cycle` holds of each part of a cycle. -/
theorem stepKeepsTheInvariant : Obligations.StepKeepsTheInvariant := by
  unfold Obligations.StepKeepsTheInvariant
  exact fun _ _ h ht => inv_step h ht

/-! ### RESET and the host's other operations -/

theorem inv_initState {s : State} (h : 1 ≤ s.clockHz) : Inv (initState s) where
  mem := wf_empty
  pc := (by decide : (0x200#16).toNat ≤ 0x10FE)
  stack := fun k => by simp [initState]
  fault := ⟨⟨fun e => (by cases e), fun e => absurd rfl e⟩, fun _ => rfl⟩
  clock := h

theorem inv_reset : Inv State.reset := inv_initState (s := State.reset) (by decide)

/-- Settles O13: the power-up state is one that RESET leaves. -/
theorem resetMeetsTheInvariant : Obligations.ResetMeetsTheInvariant := by
  unfold Obligations.ResetMeetsTheInvariant
  exact inv_reset

theorem inv_hostLoad {s : State} (h : 1 ≤ s.clockHz) (bytes : List Byte) : Inv (hostLoad bytes s) := by
  have hi := inv_initState h
  unfold hostLoad
  split
  · exact hi
  · next hlen => exact ⟨wf_writeBytes bytes (by omega) hi.mem, hi.pc, hi.stack, hi.fault, hi.clock⟩

/-- What SINGLE_STEP can do: leave the state, or perform a cycle of a paused core that is not halted. -/
theorem hostSingleStep_cases {s t : State} (h : hostSingleStep s = .next t) :
    t = s ∨ s.runMode = .paused ∧ s.halted = false ∧ cycle s = .next t := by
  unfold hostSingleStep at h
  split at h
  · next hr =>
    split at h
    · cases h; exact .inl rfl
    · next hh => exact .inr ⟨hr, by simpa using hh, h⟩
  · cases h; exact .inl rfl

theorem hostSetClock_next {f : Nat} {s t : State} (h : hostSetClock f s = .next t) :
    1 ≤ f ∧ t = { s with clockHz := f } := by
  unfold hostSetClock at h
  split at h
  · cases h
  · cases h; exact ⟨by omega, rfl⟩

theorem inv_hostOp {op : HostOp} {s t : State} (h : Inv s) (ht : hostOp op s = .next t) : Inv t := by
  cases op with
  | load bytes => cases ht; exact inv_hostLoad h.clock bytes
  | reset => cases ht; exact inv_initState h.clock
  | singleStep =>
    rcases hostSingleStep_cases ht with rfl | ⟨-, -, hc⟩
    · exact h
    · exact inv_cycle h hc
  | setClock f =>
    obtain ⟨hf, rfl⟩ := hostSetClock_next ht
    exact ⟨h.mem, h.pc, h.stack, h.fault, hf⟩
  | pause | resume | key | clearDrawFlag | render | readState =>
    cases ht
    exact ⟨h.mem, h.pc, h.stack, h.fault, h.clock⟩

/-- Settles O15, by `inv_hostOp`. -/
theorem hostOperationsKeepTheInvariant : Obligations.HostOperationsKeepTheInvariant := by
  unfold Obligations.HostOperationsKeepTheInvariant
  exact fun _ _ _ h ht => inv_hostOp h ht

/-- Settles O16: by induction on the actions that reach the state. -/
theorem reachableStatesMeetTheInvariant : Obligations.ReachableStatesMeetTheInvariant := by
  unfold Obligations.ReachableStatesMeetTheInvariant
  intro s h
  induction h with
  | reset => exact inv_reset
  | act a _ ht ih =>
    cases a with
    | turn => exact inv_step ih ht
    | host op => exact inv_hostOp ih ht

/-! ### What the host's operations write -/

/-- Settles O59: each operation by its own update; SINGLE_STEP by `hostSingleStep_cases`. -/
theorem hostWritesNoProgramState : Obligations.HostWritesNoProgramState := by
  unfold Obligations.HostWritesNoProgramState
  refine ⟨fun op s t hload hreset hsingle ht => ?_, fun s t ht => hostSingleStep_cases ht⟩
  cases op with
  | load bytes => exact absurd rfl (hload bytes)
  | reset => exact absurd rfl hreset
  | singleStep => exact absurd rfl hsingle
  | setClock f =>
    obtain ⟨-, rfl⟩ := hostSetClock_next ht
    exact ⟨rfl, rfl, rfl, rfl, rfl, rfl, rfl, rfl, rfl⟩
  | pause | resume | key | clearDrawFlag | render | readState =>
    cases ht
    exact ⟨rfl, rfl, rfl, rfl, rfl, rfl, rfl, rfl, rfl⟩

/-- Settles O58: each operation is one update of the state, or none. -/
theorem hostInputsAndReads : Obligations.HostInputsAndReads := by
  unfold Obligations.HostInputsAndReads
  refine fun s => ⟨fun f hf => if_neg (by omega), rfl, fun k b => ⟨_, rfl, rfl, fun j => ?_⟩,
    rfl, rfl, rfl, rfl, rfl⟩
  simp only [hostKey, Fin.getElem_fin, Vector.getElem_set]
  exact if_congr eq_comm rfl rfl

/-- Memory without a listed cell holds the font set of R352: its bytes are the table's rows in order. -/
theorem readByte_font : ∀ d < 16, ∀ r < 5,
    (readByte [] (5 * d + r)).toNat = (glyphTable.getD d []).getD r 0 := by
  decide

theorem readByte_above_font {a : Nat} (h : 0x050 ≤ a) : readByte [] a = 0#8 :=
  List.getD_eq_default _ _ h

/-- Settles O55: RESET lists no cell, so memory reads as the font and zeros; the other fields are its constants. -/
theorem resetValues : Obligations.ResetValues := by
  unfold Obligations.ResetValues
  refine ⟨fun s => ?_, rfl, rfl, rfl⟩
  have hfont : ∀ d r : Nat, d < 16 → r < 5 → _ := fun d r hd hr => readByte_font d hd r hr
  have hv (x : Nibble) : (initState s).getV x = 0#8 := by simp [initState, State.getV]
  have hstack (k : Fin 16) : (initState s).stack[k] = 0#16 := by simp [initState]
  have hkey (k : Fin 16) : (initState s).key[k] = false := by simp [initState]
  exact ⟨initState s, rfl, hfont, fun a h => readByte_above_font h, hv, hstack, hkey, rfl, rfl, rfl, rfl, rfl, rfl,
    pixelAt_blankPlane, rfl, rfl, rfl, rfl, rfl, rfl, rfl⟩

/-- Settles O56: LOAD writes the bytes into the memory that RESET leaves, which is canonical. -/
theorem loadCopiesTheRom : Obligations.LoadCopiesTheRom := by
  unfold Obligations.LoadCopiesTheRom
  refine fun bytes s => ⟨hostLoad bytes s, initState s, rfl, rfl, fun hbig => ⟨if_pos hbig, if_pos hbig⟩,
    fun hfit => ?_⟩
  have hload : hostLoad bytes s = { initState s with mem := writeBytes [] 0x200 bytes } := if_neg (by omega)
  rw [hload]
  exact ⟨if_neg (by omega), rfl, fun k hk => readByte_writeBytes_at bytes k hk (by omega) wf_empty,
    fun a ha => readByte_writeBytes_outside bytes [] 0x200 ha⟩

end Sys2Proof.Machine
end

section
/-! Proofs of the control-transfer and skip families (41_control_flow.md, 42_skips.md). -/

namespace Sys2Proof.Machine

open Sys2Proof.Claims

/-! ### Control transfer -/

/-- Settles O27: 0NNN is the word of SYS NNN unless it is 00E0 or 00EE. -/
theorem sysIsANoOp : Obligations.SysIsANoOp := by
  unfold Obligations.SysIsANoOp
  refine ⟨fun w nnn hw hcls hret => ?_, fun nnn s => ⟨_, rfl, rfl, rfl, fun _ => rfl⟩⟩
  have hword : w = wordNNN 0x0#4 nnn := eq_wordNNN_of_toNat (by rw [hw]; simp)
  have hwf : (Instr.sys nnn).wellFormed = true := by
    simp only [Instr.wellFormed, Bool.and_eq_true, bne_iff_ne]
    exact ⟨fun e => hcls (by rw [hword, e]; rfl), fun e => hret (by rw [hword, e]; rfl)⟩
  rw [hword]
  exact decode_wordNNN_class0 hwf

/-- Settles O28, by `pcAfter_effect`: the sum with V0 fits 16 bits. -/
theorem jumpsGoToTheirTarget : Obligations.JumpsGoToTheirTarget := by
  unfold Obligations.JumpsGoToTheirTarget
  refine ⟨encodesNNN_of_isWordOf (c := 0x1#4) fun _ => ⟨rfl, rfl⟩,
    encodesNNN_of_isWordOf (c := 0xB#4) fun _ => ⟨rfl, rfl⟩,
    fun nnn s => ⟨_, rfl, ?_, rfl, fun _ => rfl⟩, fun nnn s => ⟨_, rfl, ?_, rfl, fun _ => rfl⟩⟩
  · exact pcAfter_effect (i := .jp nnn) rfl
  · exact pcAfter_effect (i := .jpV0 nnn) rfl

/-- The stack after a push, entry by entry. -/
theorem getElem_push (v : Vector Word 16) (n : Nat) (w : Word) (k : Fin 16) :
    (v.setIfInBounds n w)[k] = if k.val = n then w else v[k] := by
  simp only [Fin.getElem_fin, Vector.getElem_setIfInBounds]
  exact if_congr eq_comm rfl rfl

/-- Settles O29: with room the effect is the push, `getElem_push`; else the table gives the fault. -/
theorem callPushesTheReturnAddress : Obligations.CallPushesTheReturnAddress := by
  unfold Obligations.CallPushesTheReturnAddress
  refine ⟨encodesNNN_of_isWordOf (c := 0x2#4) fun _ => ⟨rfl, rfl⟩, fun nnn s => ⟨fun h => ?_, fun h => ?_⟩⟩
  · have hf : faultOf (.call nnn) s = none := if_neg (by omega)
    exact ⟨_, exec_of_faultOf_none hf, Nat.min_eq_left (by omega), pcAfter_effect hf, getElem_push s.stack _ _, rfl,
      fun _ => rfl⟩
  · exact exec_takesFault (if_pos h)

/-- Settles O30: the effect reads the entry below SP; with an empty stack the table gives the fault. -/
theorem retPopsTheReturnAddress : Obligations.RetPopsTheReturnAddress := by
  unfold Obligations.RetPopsTheReturnAddress
  refine ⟨fun w hw => ?_, fun s => ⟨fun k hk => ?_, fun h => exec_takesFault (if_pos h)⟩⟩
  · rw [show w = 0x00EE#16 from BitVec.eq_of_toNat_eq hw]
    rfl
  · have hf : faultOf .ret s = none := if_neg (by omega)
    have hpred : s.sp.val - 1 = k.val := by omega
    exact ⟨_, exec_of_faultOf_none hf, hpred, by simp [effect, hpred], rfl, fun _ => rfl⟩

/-- Settles O31: the entry that CALL pushes is the one that RET pops. -/
theorem retUndoesCall : Obligations.RetUndoesCall := by
  unfold Obligations.RetUndoesCall
  intro nnn s h
  have hsp : min (s.sp.val + 1) 16 - 1 = s.sp.val := by omega
  have hcall : faultOf (.call nnn) s = none := if_neg (by omega)
  have hret : faultOf .ret (effect (.call nnn) s) = none := if_neg (by simp [effect])
  have hpop : (effect .ret (effect (.call nnn) s)).pc = s.pc + 2#16 := by
    simp [effect, hsp]
  refine ⟨_, _, exec_of_faultOf_none hcall, exec_of_faultOf_none hret, hpop, ?_, getElem_push s.stack _ _,
    fun _ => rfl⟩
  simp only [effect, hsp]

/-! ### Skips -/

/-- An instruction whose effect is a skip, for the Boolean form of its condition. -/
theorem skips_of_effect {i : Instr} {s : State} {b : Bool} {cond : Prop} (hf : faultOf i s = none)
    (he : effect i s = skipIf b s) (hb : b = true ↔ cond) : Skips i cond s := by
  obtain ⟨hskip, hnext⟩ := skipPc_skipIf hb s
  exact ⟨_, he ▸ exec_of_faultOf_none hf, hskip, hnext, rfl, fun _ => rfl⟩

/-- Settles O32: both effects are skips. -/
theorem immediateSkips : Obligations.ImmediateSkips := by
  unfold Obligations.ImmediateSkips
  exact ⟨encodesXKK_of_isWordOf (c := 0x3#4) fun _ _ => ⟨rfl, rfl⟩,
    encodesXKK_of_isWordOf (c := 0x4#4) fun _ _ => ⟨rfl, rfl⟩, fun x kk s =>
    ⟨skips_of_effect rfl rfl beq_iff_eq, skips_of_effect rfl rfl bne_iff_ne⟩⟩

/-- Words of the classes 5 and 9 are read whatever their low nibble (30_encoding.md R99). -/
theorem encodesXY_class5_class9 {n : Nat} (hn : n < 16) : EncodesXY 0x5 n .seReg ∧ EncodesXY 0x9 n .sneReg := by
  have hlow : (BitVec.ofNat 4 n).toNat = n := by simpa using hn
  rw [← hlow]
  refine ⟨fun w x y hw => ?_, fun w x y hw => ?_⟩
  · rw [eq_wordXYN_of_toNat (c := 0x5#4) hw]; simp [decode]
  · rw [eq_wordXYN_of_toNat (c := 0x9#4) hw]; simp [decode]

/-- Settles O33: both effects are skips, whatever the low nibble of the word. -/
theorem registerSkips : Obligations.RegisterSkips := by
  unfold Obligations.RegisterSkips
  exact ⟨fun n hn => encodesXY_class5_class9 hn, fun x y s =>
    ⟨skips_of_effect rfl rfl beq_iff_eq, skips_of_effect rfl rfl bne_iff_ne⟩⟩

/-- Settles O34: a key index up to F names a key, and above F the table gives the fault. -/
theorem keySkips : Obligations.KeySkips := by
  unfold Obligations.KeySkips
  refine ⟨encodesX_of_isWordOf (c := 0xE#4) (kk := 0x9E#8) fun _ => ⟨rfl, rfl⟩,
    encodesX_of_isWordOf (c := 0xE#4) (kk := 0xA1#8) fun _ => ⟨rfl, rfl⟩,
    fun x s => ⟨fun k hk => ?_, fun h => ?_⟩⟩
  · have hle : ¬(s.getV x).toNat > 0xF := by omega
    exact ⟨skips_of_effect (if_neg hle) rfl (keyAt_beq_some_iff hk true),
      skips_of_effect (if_neg hle) rfl (keyAt_beq_some_iff hk false)⟩
  · exact ⟨exec_takesFault (if_pos h), exec_takesFault (if_pos h)⟩

end Sys2Proof.Machine
end

section
/-! Proofs of the register loads, the logic, the shifts and the random draw (43_alu.md). -/

namespace Sys2Proof.Machine

open Sys2Proof.Claims

/-- Settles O35: each is one register write. -/
theorem registerLoads : Obligations.RegisterLoads := by
  unfold Obligations.RegisterLoads
  exact ⟨encodesXKK_of_isWordOf (c := 0x6#4) fun _ _ => ⟨rfl, rfl⟩,
    encodesXY_of_isWordOf (c := 0x8#4) (n := 0x0#4) fun _ _ => ⟨rfl, rfl⟩,
    fun x kk s => exists_next_of_setV rfl, fun x y s => exists_next_of_setV rfl⟩

/-- An instruction that goes on after writing V[x], with what the byte is bit by bit. -/
theorem exists_next_of_setV_bits {i : Instr} {s : State} {x : Nibble} {b : Byte} {bit : Nat → Bool}
    (h : exec i s = .next (s.setV x b).advance) (hb : ∀ k, b.getLsbD k = bit k) :
    ∃ t, exec i s = .next t ∧ (∀ k < 8, (t.getV x).getLsbD k = bit k) ∧ OtherRegsSame x s t ∧
      t.pc = s.pc + 2#16 ∧ OnlyRegsAndPc s t := by
  obtain ⟨t, ht, hx, hframe⟩ := exists_next_of_setV h
  exact ⟨t, ht, fun k _ => by rw [hx, hb], hframe⟩

/-- Settles O37: each is one register write, of a byte known bit by bit. -/
theorem logicIsBitwiseWithoutFlag : Obligations.LogicIsBitwiseWithoutFlag := by
  unfold Obligations.LogicIsBitwiseWithoutFlag
  exact ⟨encodesXY_of_isWordOf (c := 0x8#4) (n := 0x1#4) fun _ _ => ⟨rfl, rfl⟩,
    encodesXY_of_isWordOf (c := 0x8#4) (n := 0x2#4) fun _ _ => ⟨rfl, rfl⟩,
    encodesXY_of_isWordOf (c := 0x8#4) (n := 0x3#4) fun _ _ => ⟨rfl, rfl⟩, fun x y s =>
    ⟨exists_next_of_setV_bits rfl fun _ => BitVec.getLsbD_or,
      exists_next_of_setV_bits rfl fun _ => BitVec.getLsbD_and,
      exists_next_of_setV_bits rfl fun _ => BitVec.getLsbD_xor⟩⟩

/-- Settles O38, from WriteRF as two writes in either order. -/
theorem flagOrderDecidesOnlyWhenXIsF : Obligations.FlagOrderDecidesOnlyWhenXIsF := by
  unfold Obligations.FlagOrderDecidesOnlyWhenXIsF
  refine fun x y r f v => ⟨?_, ?_, fun hx => ?_⟩
  · rw [writeRFRegs_eq_two_writes, getElem_setReg, getElem_setReg]
  · rw [writeRFRegs_eq_two_writes, getElem_setReg, getElem_setReg]
  · rw [writeRFRegs, writeRFRegs, if_neg hx, if_neg hx]

theorem shrResult_eq_ofNat (a : Byte) : shrResult a = BitVec.ofNat 8 (a.toNat / 2) := by
  apply BitVec.eq_of_toNat_eq
  simp [shrResult, Nat.shiftRight_eq_div_pow]
  omega

/-- A bit as the number that VF takes. -/
theorem flagByte_getLsbD (a : Byte) (k : Nat) : flagByte (a.getLsbD k) = BitVec.ofNat 8 (a.toNat / 2 ^ k % 2) := by
  rw [BitVec.getLsbD, Nat.testBit_eq_decide_div_mod_eq]
  rcases Nat.mod_two_eq_zero_or_one (a.toNat / 2 ^ k) with h | h <;> simp [flagByte, h]

theorem flagByte_shrOut (a : Byte) : flagByte (shrOut a) = BitVec.ofNat 8 (a.toNat % 2) := by
  rw [shrOut, flagByte_getLsbD, Nat.pow_zero, Nat.div_one]

theorem shlResult_eq_ofNat (a : Byte) : shlResult a = BitVec.ofNat 8 (a.toNat * 2 % 256) := by
  apply BitVec.eq_of_toNat_eq
  simp [shlResult, Nat.shiftLeft_eq]

theorem flagByte_shlOut (a : Byte) : flagByte (shlOut a) = BitVec.ofNat 8 (a.toNat / 128) := by
  have hbit : a.toNat / 2 ^ 7 % 2 = a.toNat / 128 := by omega
  rw [shlOut, flagByte_getLsbD, hbit]

theorem exec_shr (x y : Nibble) (s : State) : exec (.shr x y) s =
    .next (s.writeRF x (BitVec.ofNat 8 ((s.getV x).toNat / 2)) (BitVec.ofNat 8 ((s.getV x).toNat % 2))).advance := by
  rw [← shrResult_eq_ofNat, ← flagByte_shrOut]
  rfl

theorem exec_shl (x y : Nibble) (s : State) : exec (.shl x y) s =
    .next (s.writeRF x (BitVec.ofNat 8 ((s.getV x).toNat * 2 % 256))
      (BitVec.ofNat 8 ((s.getV x).toNat / 128))).advance := by
  rw [← shlResult_eq_ofNat, ← flagByte_shlOut]
  rfl

/-- Settles O41: both are WriteRF of the shifted byte and the bit shifted out. -/
theorem shiftsSetTheBitShiftedOut : Obligations.ShiftsSetTheBitShiftedOut := by
  unfold Obligations.ShiftsSetTheBitShiftedOut
  exact ⟨encodesXY_of_isWordOf (c := 0x8#4) (n := 0x6#4) fun _ _ => ⟨rfl, rfl⟩,
    encodesXY_of_isWordOf (c := 0x8#4) (n := 0xE#4) fun _ _ => ⟨rfl, rfl⟩, fun x y s =>
    ⟨exists_next_of_writeRF (exec_shr x y s), exists_next_of_writeRF (exec_shl x y s)⟩⟩

/-- Only RND takes a draw. -/
theorem draws_effect_of_not_rnd {i : Instr} (h : ∀ x kk, i ≠ .rnd x kk) (s : State) :
    (effect i s).draws = s.draws := by
  cases i with
  | rnd x kk => exact absurd rfl (h x kk)
  | ldVK x => rcases effect_ldVK_cases x s with e | ⟨b, e⟩ <;> simp [e]
  | _ => rfl

/-- Settles O42: RND is a register write beside the counter, which no other effect changes. -/
theorem randomIsAMaskedFreshDraw : Obligations.RandomIsAMaskedFreshDraw := by
  unfold Obligations.RandomIsAMaskedFreshDraw
  refine ⟨encodesXKK_of_isWordOf (c := 0xC#4) fun _ _ => ⟨rfl, rfl⟩, fun x kk s => ?_, fun i s t h hne => ?_⟩
  · have hv (y : Nibble) : (effect (.rnd x kk) s).getV y = if y = x then Config.rnd s.draws &&& kk else s.getV y :=
      getV_setV s x y _
    refine ⟨effect (.rnd x kk) s, rfl, fun k _ => ?_, fun y hy => ?_, rfl, rfl, rfl, fun _ => rfl⟩
    · rw [hv, if_pos rfl, BitVec.getLsbD_and]
    · rw [hv, if_neg hy]
  · by_contra hrnd
    rcases exec_next_cases h with ⟨c, n, -, rfl⟩ | ⟨-, rfl⟩
    · exact hne rfl
    · exact hne (draws_effect_of_not_rnd (fun x kk e => hrnd ⟨x, kk, e⟩) s)

end Sys2Proof.Machine
end

section
/-! Proofs of the index and memory transfers, the timer moves and the keyboard wait (44_index_memory.md,
45_timers_keys.md). -/

namespace Sys2Proof.Machine

open Sys2Proof.Claims

/-- Settles O43: 5 VX fits I for a digit up to F, and above F the table gives the fault. -/
theorem indexLoads : Obligations.IndexLoads := by
  unfold Obligations.IndexLoads
  refine ⟨encodesNNN_of_isWordOf (c := 0xA#4) fun _ => ⟨rfl, rfl⟩,
    encodesX_of_isWordOf (c := 0xF#4) (kk := 0x29#8) fun _ => ⟨rfl, rfl⟩,
    fun nnn s => ⟨_, rfl, rfl, rfl, rfl, fun _ => rfl⟩,
    fun x s => ⟨fun h => ?_, fun h => exec_takesFault (if_pos h)⟩⟩
  have hf : faultOf (.ldF x) s = none := if_neg (by omega)
  have hi : (effect (.ldF x) s).i.toNat = 5 * (s.getV x).toNat :=
    (BitVec.toNat_ofNat _ _).trans (Nat.mod_eq_of_lt (by omega))
  exact ⟨_, exec_of_faultOf_none hf, hi, rfl, rfl, fun _ => rfl⟩

/-- Settles O44: a sum up to FFF fits I, and above FFF the table gives the fault. -/
theorem addIndexIsExactOrFaults : Obligations.AddIndexIsExactOrFaults := by
  unfold Obligations.AddIndexIsExactOrFaults
  refine ⟨encodesX_of_isWordOf (c := 0xF#4) (kk := 0x1E#8) fun _ => ⟨rfl, rfl⟩,
    fun x s => ⟨fun h => ?_, fun h => exec_takesFault (if_pos h)⟩⟩
  have hf : faultOf (.addI x) s = none := if_neg (by omega)
  have hi : (effect (.addI x) s).i.toNat = s.i.toNat + (s.getV x).toNat :=
    (BitVec.toNat_ofNat _ _).trans (Nat.mod_eq_of_lt (by omega))
  exact ⟨_, exec_of_faultOf_none hf, hi, rfl, rfl, fun _ => rfl⟩

/-! ### Stores -/

/-- A store at I within memory: each byte reads back from its place, and nothing else changes but pc. -/
theorem storeAtI_reads {s : State} {bs : List Byte} (hm : Memory.wf s.mem = true)
    (hr : s.i.toNat + bs.length ≤ 4096) (k : Nat) (hk : k < bs.length) :
    readByte (s.storeAtI bs).advance.mem (s.i.toNat + k) = bs[k] :=
  readByte_writeBytes_at bs k hk hr hm

theorem onlyBytesAndPc_storeAtI (s : State) {bs : List Byte} {n : Nat} (hn : bs.length = n) :
    OnlyBytesAndPc s.i.toNat n s (s.storeAtI bs).advance :=
  ⟨rfl, fun _ ha => readByte_writeBytes_outside bs s.mem s.i.toNat (by rwa [hn])⟩

/-- Settles O45: the three digits are the bytes stored at I, `storeAtI_reads`. -/
theorem bcdStoresThreeDigits : Obligations.BcdStoresThreeDigits := by
  unfold Obligations.BcdStoresThreeDigits
  refine ⟨encodesX_of_isWordOf (c := 0xF#4) (kk := 0x33#8) fun _ => ⟨rfl, rfl⟩,
    fun x s hm => ⟨fun h => ?_, fun h => exec_takesFault (if_pos (by omega))⟩⟩
  have hf : faultOf (.ldB x) s = none := if_neg (by omega)
  have hlen : (decimalDigits (s.getV x)).length = 3 := rfl
  have digit (k : Nat) (hk : k < 3) :
      readByte (effect (.ldB x) s).mem (s.i.toNat + k) = (decimalDigits (s.getV x))[k] :=
    storeAtI_reads (bs := decimalDigits (s.getV x)) hm (by omega) k hk
  have narrow {n : Nat} (hn : n < 256) : (BitVec.ofNat 8 n).toNat = n := by simpa using hn
  have := (s.getV x).isLt
  exact ⟨_, exec_of_faultOf_none hf, (congrArg BitVec.toNat (digit 0 (by decide))).trans (narrow (by omega)),
    (congrArg BitVec.toNat (digit 1 (by decide))).trans (narrow (by omega)),
    (congrArg BitVec.toNat (digit 2 (by decide))).trans (narrow (by omega)), rfl, onlyBytesAndPc_storeAtI s rfl⟩

/-- FX55 within memory stores each register up to VX at its place. -/
theorem readByte_effect_ldMemV {x : Nibble} {s : State} (hm : Memory.wf s.mem = true)
    (h : s.i.toNat + x.toNat ≤ 0xFFF) (k : Nibble) (hk : k.toNat ≤ x.toNat) :
    readByte (effect (.ldMemV x) s).mem (s.i.toNat + k.toNat) = s.getV k := by
  refine (storeAtI_reads hm (by rw [length_regsUpTo]; omega) k.toNat (by rw [length_regsUpTo]; omega)).trans ?_
  exact getElem_regsUpTo s.v x k.toNat _

/-- Settles O46, by `readByte_effect_ldMemV`. -/
theorem storeRegistersAtI : Obligations.StoreRegistersAtI := by
  unfold Obligations.StoreRegistersAtI
  refine ⟨encodesX_of_isWordOf (c := 0xF#4) (kk := 0x55#8) fun _ => ⟨rfl, rfl⟩,
    fun x s hm => ⟨fun h => ?_, fun h => exec_takesFault (if_pos h)⟩⟩
  exact ⟨_, exec_of_faultOf_none (if_neg (by omega)), readByte_effect_ldMemV hm h, rfl,
    onlyBytesAndPc_storeAtI s (length_regsUpTo s.v x)⟩

/-- Settles O48: the next fetch reads the first two bytes stored. -/
theorem storedCodeIsFetchedNext : Obligations.StoredCodeIsFetchedNext := by
  unfold Obligations.StoredCodeIsFetchedNext
  intro x s hm hx hpc hi h
  have hnext : (effect (.ldMemV x) s).pc.toNat = s.i.toNat := by
    have hadd : (s.pc + 2#16).toNat = s.pc.toNat + 2 := by bv_omega
    exact hadd.trans hi.symm
  have hV0 := readByte_effect_ldMemV hm h 0#4 (Nat.zero_le _)
  have hV1 := readByte_effect_ldMemV hm h 1#4 hx
  refine ⟨_, exec_of_faultOf_none (if_neg (by omega)), ?_⟩
  rw [toNat_fetch16, hnext, ← hV0, ← hV1]
  rfl

/-! ### Loads -/

/-- FX65 loads each register up to VX from its place. -/
theorem getV_effect_ldVMem (x k : Nibble) (s : State) : (effect (.ldVMem x) s).getV k =
    if k.toNat ≤ x.toNat then readByte s.mem (s.i.toNat + k.toNat) else s.getV k := by
  refine (getElem_loadRegs _ s.v 0 k.toNat k.isLt).trans ?_
  by_cases h : k.toNat ≤ x.toNat
  · have hlen : k.toNat - 0 < (bytesAtI s (x.toNat + 1)).length := by simp [bytesAtI]; omega
    rw [dif_pos ⟨Nat.zero_le _, hlen⟩, if_pos h]
    exact getElem_readBytes s.mem (x.toNat + 1) s.i.toNat k.toNat hlen
  · rw [dif_neg (by simp [bytesAtI]; omega), if_neg h]
    rfl

/-- Settles O47, by `getV_effect_ldVMem`. -/
theorem loadRegistersFromI : Obligations.LoadRegistersFromI := by
  unfold Obligations.LoadRegistersFromI
  refine ⟨encodesX_of_isWordOf (c := 0xF#4) (kk := 0x65#8) fun _ => ⟨rfl, rfl⟩,
    fun x s => ⟨fun h => ?_, fun h => exec_takesFault (if_pos h)⟩⟩
  exact ⟨_, exec_of_faultOf_none (if_neg (by omega)), fun k => getV_effect_ldVMem x k s, rfl, rfl, fun _ => rfl⟩

/-! ### Timers and the keyboard wait -/

/-- Settles O49: each is one write. -/
theorem timerMoves : Obligations.TimerMoves := by
  unfold Obligations.TimerMoves
  exact ⟨encodesX_of_isWordOf (c := 0xF#4) (kk := 0x07#8) fun _ => ⟨rfl, rfl⟩,
    encodesX_of_isWordOf (c := 0xF#4) (kk := 0x15#8) fun _ => ⟨rfl, rfl⟩,
    encodesX_of_isWordOf (c := 0xF#4) (kk := 0x18#8) fun _ => ⟨rfl, rfl⟩,
    fun x s => ⟨exists_next_of_setV rfl, ⟨_, rfl, rfl, rfl, rfl, fun _ => rfl⟩,
      ⟨_, rfl, rfl, rfl, rfl, fun _ => rfl⟩⟩⟩

/-- Settles O51: execute answers the state itself, which is then accounted. -/
theorem keyWaitIsAFullStep : Obligations.KeyWaitIsAFullStep := by
  unfold Obligations.KeyWaitIsAFullStep
  rintro s x ⟨hh, hr, hF⟩ hpc hw hkey
  have hd : decode (fetch16 s) = .ok (.ldVK x) := encodesX_ldVK _ x (by omega)
  have hwait : exec (.ldVK x) { s with opcode := fetch16 s } = .next { s with opcode := fetch16 s } :=
    exec_ldVK_of_none x (lowestKey_eq_none hkey)
  obtain ⟨t, ht, hacc, hticks⟩ := timerAccount_closed (s := { s with opcode := fetch16 s }) hF
  refine ⟨t, ?_, by rw [hticks.frame], by rw [hticks.frame], by rw [hticks.frame], hacc, hticks.dt, hticks.st⟩
  rw [step_of_running hh hr, cycle_of_fetch hpc, execWord_of_ok hd, hwait, finishCycle_of_not_halted (by exact hh), ht]

end Sys2Proof.Machine
end

section
/-! Proofs of the display family (46_display.md). -/

namespace Sys2Proof.Machine

open Sys2Proof.Claims

/-- Settles O52: the plane is the blank one. -/
theorem clearScreen : Obligations.ClearScreen := by
  unfold Obligations.ClearScreen
  refine ⟨fun w hw => ?_, fun s => ⟨_, rfl, pixelAt_blankPlane, rfl, rfl, rfl, fun _ => rfl⟩⟩
  rw [show w = 0x00E0#16 from BitVec.eq_of_toNat_eq hw]
  rfl

/-- The sprite's bytes at I cover what the statement's sprite covers. -/
theorem coveredBy_bytesAtI_iff (s : State) (x y : Byte) (n : Nat) (r : Fin 32) (c : Fin 64) :
    CoveredBy x y 0 (bytesAtI s n) r c ↔ Covers s x y n r c := by
  have hbyte (k : Nat) (hk : k < n) : (bytesAtI s n).getD k 0#8 = readByte s.mem (s.i.toNat + k) := by
    have hlen : k < (bytesAtI s n).length := by simpa [bytesAtI] using hk
    rw [List.getD_eq_getElem _ _ hlen]
    exact getElem_readBytes s.mem n s.i.toNat k hlen
  have hlen : (bytesAtI s n).length = n := length_readBytes s.mem s.i.toNat n
  unfold CoveredBy Covers
  refine exists_congr fun k => exists_congr fun col => ?_
  rw [hlen, Nat.zero_add]
  exact and_congr_right fun hk => by rw [hbyte k hk]

/-- DRW's plane and collision, over the pixels its sprite covers (R272, R273). -/
theorem drawSprite_bytesAtI (s : State) (x y : Byte) (n : Nibble) :
    (∀ r c, pixelAt (drawSprite x y (bytesAtI s n.toNat) s.disp).1 r c ≠ pixelAt s.disp r c ↔
      Covers s x y n.toNat r c) ∧
    ((drawSprite x y (bytesAtI s n.toNat) s.disp).2 = true ↔
      ∃ r c, Covers s x y n.toNat r c ∧ pixelAt s.disp r c = true) := by
  have hlen : (bytesAtI s n.toNat).length ≤ 15 := by
    have := nibble_lt n
    simp [bytesAtI]
    omega
  obtain ⟨hpix, hcol⟩ := drawSprite_spec x y (bytesAtI s n.toNat) hlen s.disp
  simp only [coveredBy_bytesAtI_iff] at hpix hcol
  exact ⟨hpix, hcol⟩

/-- DRW toggles exactly the pixels its sprite covers. -/
theorem pixelAt_effect_drw_ne_iff (x y n : Nibble) (s : State) (r : Fin 32) (c : Fin 64) :
    pixelAt (effect (.drw x y n) s).disp r c ≠ pixelAt s.disp r c ↔ Covers s (s.getV x) (s.getV y) n.toNat r c :=
  (drawSprite_bytesAtI s (s.getV x) (s.getV y) n).1 r c

theorem exec_drw {x y n : Nibble} {s : State} (h : n.toNat = 0 ∨ s.i.toNat + n.toNat ≤ 0x1000) :
    exec (.drw x y n) s = .next (effect (.drw x y n) s) :=
  exec_of_faultOf_none (if_neg (by have := s.i.isLt; omega))

/-- VF after DRW is 1 exactly where a covered pixel was set. -/
theorem getV_F_effect_drw (x y n : Nibble) (s : State) : (effect (.drw x y n) s).getV 0xF#4 =
    flagByte (drawSprite (s.getV x) (s.getV y) (bytesAtI s n.toNat) s.disp).2 :=
  (getV_of_setReg (v := s.v) rfl 0xF#4).trans (if_pos rfl)

theorem getV_effect_drw_of_ne {x y n z : Nibble} (h : z ≠ 0xF#4) (s : State) :
    (effect (.drw x y n) s).getV z = s.getV z :=
  (getV_of_setReg rfl z).trans (if_neg h)

theorem getV_F_effect_drw_of_collision {x y n : Nibble} {s : State}
    (h : ∃ r c, Covers s (s.getV x) (s.getV y) n.toNat r c ∧ pixelAt s.disp r c = true) :
    (effect (.drw x y n) s).getV 0xF#4 = 1#8 := by
  rw [getV_F_effect_drw, (drawSprite_bytesAtI s (s.getV x) (s.getV y) n).2.mpr h]
  rfl

theorem getV_F_effect_drw_of_no_collision {x y n : Nibble} {s : State}
    (h : ∀ r c, Covers s (s.getV x) (s.getV y) n.toNat r c → pixelAt s.disp r c = false) :
    (effect (.drw x y n) s).getV 0xF#4 = 0#8 := by
  have hfree : (drawSprite (s.getV x) (s.getV y) (bytesAtI s n.toNat) s.disp).2 = false := by
    rw [Bool.eq_false_iff, Ne, (drawSprite_bytesAtI s (s.getV x) (s.getV y) n).2]
    rintro ⟨r, c, hc, hset⟩
    simp [h r c hc] at hset
  rw [getV_F_effect_drw, hfree]
  rfl

/-- Settles O53, by what `drawSprite_bytesAtI` says of the plane and of the collision. -/
theorem drawTogglesTheSpritesPixels : Obligations.DrawTogglesTheSpritesPixels := by
  unfold Obligations.DrawTogglesTheSpritesPixels
  refine ⟨fun w x y n hw => ?_, fun x y n s => ⟨fun h => ?_, fun h1 h => exec_takesFault (if_pos h)⟩⟩
  · rw [eq_wordXYN_of_toNat (c := 0xD#4) hw]
    exact decode_encode (.drw x y n) rfl
  · exact ⟨_, exec_drw h, pixelAt_effect_drw_ne_iff x y n s, getV_F_effect_drw_of_collision,
      getV_F_effect_drw_of_no_collision, fun z hz => getV_effect_drw_of_ne hz s, rfl, rfl, rfl, fun _ => rfl⟩

/-- The second of two equal draws covers the pixels of the first: DRW changes neither the coordinates, which are not
VF, nor the sprite. -/
theorem covers_effect_drw_iff {x y : Nibble} (hx : x ≠ 0xF#4) (hy : y ≠ 0xF#4) (n : Nibble) (s : State) (r : Fin 32)
    (c : Fin 64) :
    Covers (effect (.drw x y n) s) ((effect (.drw x y n) s).getV x) ((effect (.drw x y n) s).getV y) n.toNat r c ↔
      Covers s (s.getV x) (s.getV y) n.toNat r c := by
  rw [getV_effect_drw_of_ne hx, getV_effect_drw_of_ne hy]
  rfl

/-- Two equal draws toggle each pixel twice or never. -/
theorem disp_effect_drw_twice {x y : Nibble} (hx : x ≠ 0xF#4) (hy : y ≠ 0xF#4) (n : Nibble) (s : State) :
    (effect (.drw x y n) (effect (.drw x y n) s)).disp = s.disp := by
  refine plane_ext fun r c => ?_
  have hfirst := pixelAt_effect_drw_ne_iff x y n s r c
  have hsecond := pixelAt_effect_drw_ne_iff x y n (effect (.drw x y n) s) r c
  rw [covers_effect_drw_iff hx hy] at hsecond
  by_cases hc : Covers s (s.getV x) (s.getV y) n.toNat r c
  · rw [Bool.eq_not_of_ne (hsecond.mpr hc), Bool.eq_not_of_ne (hfirst.mpr hc), Bool.not_not]
  · exact (not_not.mp (mt hsecond.mp hc)).trans (not_not.mp (mt hfirst.mp hc))

/-- Settles O54: on a blank plane the first draw finds no set pixel, and the second finds those the first set. -/
theorem drawingTwiceRestoresThePlane : Obligations.DrawingTwiceRestoresThePlane := by
  unfold Obligations.DrawingTwiceRestoresThePlane
  intro x y n s hx hy h
  refine ⟨_, _, exec_drw (.inr h), exec_drw (.inr h), disp_effect_drw_twice hx hy n s,
    fun hblank hcov => ⟨?_, ?_⟩⟩
  · exact getV_F_effect_drw_of_no_collision fun r c _ => by rw [hblank, pixelAt_blankPlane]
  · obtain ⟨r, c, hc⟩ := hcov
    have hset : pixelAt (effect (.drw x y n) s).disp r c = true := by
      have hne := (pixelAt_effect_drw_ne_iff x y n s r c).mpr hc
      rwa [hblank, pixelAt_blankPlane, ne_eq, Bool.not_eq_false] at hne
    exact getV_F_effect_drw_of_collision ⟨r, c, (covers_effect_drw_iff hx hy n s r c).mpr hc, hset⟩

end Sys2Proof.Machine
end
